-- ==== Sys2Proof/Word.lean ====
section
/-! DEFINITION. The word types of THGN801-CORE (spec 00_scope.md rule R5): bit 0 is the least significant bit. -/

namespace Sys2Proof

/-- A nibble: "4-bit unit; two nibbles per byte" (rule R9). -/
abbrev Nibble := BitVec 4

/-- A byte: 8 bits, the only width in which the payload buffer is read and written (rules R6, R30). -/
abbrev Byte := BitVec 8

/-- A 16-bit quantity: a command word (rule R45), `TYPE` or `TEMP` (rule R10). -/
abbrev Word := BitVec 16

end Sys2Proof
end

