-- ==== Sys2Proof/Syntax.lean ====
section
/-! DEFINITION. The ten commands of spec 30_encoding.md rule R49, one constructor per row of opcode_table.json. -/

namespace Sys2Proof

/-- A command as the port takes it: its `op` is the constructor, and it carries both other fields of format F1 (rule R47) as the
word gives them, used or not: a "must be 0" field that is not 0 is part of the command, which then raises `ErrReserved`
(rules R50, R51). `a` is bits 11:8 and `imm8` bits 7:0. -/
inductive Instr where
  /-- `LDB a, imm8`: load buffer byte (rule R60). -/
  | ldb (a : Nibble) (imm8 : Byte)
  /-- `RDB a`: read buffer byte (rule R61). -/
  | rdb (a : Nibble) (imm8 : Byte)
  /-- `LDR a, imm8`: load register (rule R62). -/
  | ldr (a : Nibble) (imm8 : Byte)
  /-- `RDR a`: read register (rule R63). -/
  | rdr (a : Nibble) (imm8 : Byte)
  /-- `SUM8 count`: simple checksum (rule R70). -/
  | sum8 (a : Nibble) (imm8 : Byte)
  /-- `CRC8 count`: CRC-8 (rule R80). -/
  | crc8 (a : Nibble) (imm8 : Byte)
  /-- `BCDE`: BCD-encode the reading into the buffer (rule R90). -/
  | bcde (a : Nibble) (imm8 : Byte)
  /-- `BCDD`: BCD-decode the buffer into the reading (rule R95). -/
  | bcdd (a : Nibble) (imm8 : Byte)
  /-- `BUILD`: assemble the payload (rule R100). -/
  | build (a : Nibble) (imm8 : Byte)
  /-- `XMIT`: send the payload on `TX` (rule R120). -/
  | xmit (a : Nibble) (imm8 : Byte)
  deriving DecidableEq, Repr

end Sys2Proof
end

