-- ==== Sys2Proof/WellFormed.lean ====
section
/-! DEFINITION. The well-formedness checks of spec 30_encoding.md rule R50, in its order (60_exceptions.md rule R146). They look
at the command alone; the one check that looks at the buffer, `ErrBcd`, belongs to BCDD's meaning. -/

namespace Sys2Proof

/-- Why a command word with a legal `op` is not well-formed. -/
inductive IllFormed where
  /-- A field marked "must be 0" is not 0: `ErrReserved`. -/
  | reserved
  /-- A buffer index above 12 or a register number above 7: `ErrIndex`. -/
  | index
  /-- A count whose window leaves the buffer: `ErrCount`. -/
  | count
  /-- LDR to `BATT` with a non-zero upper nibble: `ErrValue`. -/
  | value
  deriving DecidableEq, Repr

/-- The first check of rule R50 that the command fails, if any. -/
def Instr.illFormed : Instr → Option IllFormed
  | .ldb a _ => if 12 < a.toNat then some .index else none
  | .rdb a imm8 => if imm8 ≠ 0 then some .reserved else if 12 < a.toNat then some .index else none
  | .ldr a imm8 =>
    if 7 < a.toNat then some .index else if a.toNat = 4 ∧ 15 < imm8.toNat then some .value else none
  | .rdr a imm8 => if imm8 ≠ 0 then some .reserved else if 7 < a.toNat then some .index else none
  | .sum8 a imm8 => if a ≠ 0 then some .reserved else if 18 < imm8.toNat then some .count else none
  | .crc8 a imm8 => if a ≠ 0 then some .reserved else if 19 < imm8.toNat then some .count else none
  | .bcde a imm8 => if a ≠ 0 ∨ imm8 ≠ 0 then some .reserved else none
  | .bcdd a imm8 => if a ≠ 0 ∨ imm8 ≠ 0 then some .reserved else none
  | .build a imm8 => if a ≠ 0 ∨ imm8 ≠ 0 then some .reserved else none
  | .xmit a imm8 => if a ≠ 0 ∨ imm8 ≠ 0 then some .reserved else none

/-- The command passes every check of rule R50. -/
def Instr.wellFormed (i : Instr) : Bool := i.illFormed.isNone

end Sys2Proof
end

