-- ==== Sys2Proof/Decode.lean ====
section
/-! DEFINITION. Decoding and encoding of command words: format F1 and the opcode map (spec 30_encoding.md rules R47 to R52, R55).
The decoder selects the command by `op` alone (rule R50) and is total: a word either is one of the ten commands or is refused
by name. -/

namespace Sys2Proof

/-- Why a word is no command. -/
inductive DecodeReject where
  /-- `op` is 0x0 or 0xB to 0xF (rule R51); accepting the word raises `ErrIllegal`. -/
  | illegalOp (op : Nibble)
  deriving DecidableEq, Repr

/-- Bits 15:12 of a command word: `op` (rule R47). -/
def wordOp (w : Word) : Nibble := w.extractLsb' 12 4

/-- Bits 11:8 of a command word: `a` (rule R47). -/
def wordA (w : Word) : Nibble := w.extractLsb' 8 4

/-- Bits 7:0 of a command word: `imm8` (rule R47). -/
def wordImm8 (w : Word) : Byte := w.extractLsb' 0 8

/-- The opcode map of rule R49: the command an `op` selects, from its two operand fields. -/
def opcodeMap (op : Nibble) (a : Nibble) (imm8 : Byte) : Except DecodeReject Instr :=
  match op.toNat with
  | 1 => .ok (.ldb a imm8)
  | 2 => .ok (.rdb a imm8)
  | 3 => .ok (.ldr a imm8)
  | 4 => .ok (.rdr a imm8)
  | 5 => .ok (.sum8 a imm8)
  | 6 => .ok (.crc8 a imm8)
  | 7 => .ok (.bcde a imm8)
  | 8 => .ok (.bcdd a imm8)
  | 9 => .ok (.build a imm8)
  | 10 => .ok (.xmit a imm8)
  | _ => .error (.illegalOp op)

/-- The command a word is, or the name of its refusal (rules R50, R51). -/
def decode (w : Word) : Except DecodeReject Instr := opcodeMap (wordOp w) (wordA w) (wordImm8 w)

/-- The `op` of a command (rule R49). -/
def Instr.op : Instr → Nibble
  | .ldb _ _ => 0x1
  | .rdb _ _ => 0x2
  | .ldr _ _ => 0x3
  | .rdr _ _ => 0x4
  | .sum8 _ _ => 0x5
  | .crc8 _ _ => 0x6
  | .bcde _ _ => 0x7
  | .bcdd _ _ => 0x8
  | .build _ _ => 0x9
  | .xmit _ _ => 0xA

/-- The `a` field of a command. -/
def Instr.fieldA : Instr → Nibble
  | .ldb a _ | .rdb a _ | .ldr a _ | .rdr a _ | .sum8 a _ => a
  | .crc8 a _ | .bcde a _ | .bcdd a _ | .build a _ | .xmit a _ => a

/-- The `imm8` field of a command. -/
def Instr.fieldImm8 : Instr → Byte
  | .ldb _ i | .rdb _ i | .ldr _ i | .rdr _ i | .sum8 _ i => i
  | .crc8 _ i | .bcde _ i | .bcdd _ i | .build _ i | .xmit _ i => i

/-- `cmd = (op << 12) | (a << 8) | imm8` (rule R55): the word of a command, well-formed or not. -/
def encode (i : Instr) : Word :=
  (i.op.setWidth 16 <<< 12) ||| (i.fieldA.setWidth 16 <<< 8) ||| i.fieldImm8.setWidth 16

/-- The command word an opcode-table row's `nbits` bits stand for: the port takes the 16 bits whole, numbered as the table numbers
them, and bits the table does not give are 0. -/
def tableWord (nbits w : Nat) : Word := BitVec.ofNat 16 (w % 2 ^ nbits)

/-- The command the decoder reads from a table row's word; none where it refuses. -/
def decodeTableWord (nbits w : Nat) : Option Instr :=
  match decode (tableWord nbits w) with
  | .ok i => some i
  | .error _ => none

end Sys2Proof
end

