-- ==== Sys2Proof/Config.lean ====
section
/-! DEFINITION. What an implementation fixes (spec 00_scope.md rule R4, 45_xmit.md rules R128 and R133) and the free
values (10_state.md rules R18, R19 and R22; 93_implementation_defined.md U1, U2, U21). Neither has a body: a claim holds for
every legal parameter set and for every free value. -/

namespace Sys2Proof

/-- `floor(UNIT_US * TUNING) - PULSE_SHORTEN_US` (rules R4, R128), `TUNING` being the rational `num / den`. A difference
below zero comes out as 0 here; both are outside `(0, 2*UNIT_US)` and refused alike. -/
def onLength (unit num den shorten : Nat) : Nat := unit * num / den - shorten

/-- The implementation parameters of rule R4 with the constraints under which rules R4, R128 and R133 admit them: "parameter sets
that break this are refused at configuration time", so no other set is a value of this type (93_implementation_defined.md U18).
The defaults are the spec's; `PULSE_SHORTEN_US` has none, because the spec leaves it OPEN. -/
structure Params where
  /-- `UNIT_US`, microseconds of half a bit cell. -/
  unitUs : Nat := 488
  /-- numerator of `TUNING`. -/
  tuningNum : Nat := 11
  /-- denominator of `TUNING`. -/
  tuningDen : Nat := 10
  /-- `PULSE_SHORTEN_US`: OPEN, no value in the spec. -/
  pulseShortenUs : Nat
  /-- `ZERO_LOW_US`, microseconds of the LOW part of a 0 bit (rule R127). -/
  zeroLowUs : Nat := 2 * unitUs - onLength unitUs tuningNum tuningDen pulseShortenUs
  /-- `TW`, the width of the microsecond counter. -/
  tw : Nat := 32
  den_pos : 0 < tuningDen := by decide
  on_pos : 0 < onLength unitUs tuningNum tuningDen pulseShortenUs := by decide
  on_lt : onLength unitUs tuningNum tuningDen pulseShortenUs < 2 * unitUs := by decide
  zeroLow_pos : 0 < zeroLowUs := by decide
  zeroLow_lt : zeroLowUs < 2 * unitUs := by decide
  tw_ge : 20 ≤ tw := by decide
  frame_fits : 209 * unitUs < 2 ^ (tw - 1) := by decide
  deriving DecidableEq, Repr, Inhabited

/-- The parameter set this block was built with: "fixed at build/startup time, not mutable at runtime" (rules R4, R23).
No body: any legal set (DEDUCED, assumption 7, safe). -/
opaque Config.params : Params

/-- The free values: what a place the spec calls "unspecified" holds, one per width and draw number. No body: nothing in Lean
can evaluate it (rules R18, R19, R22; U1, U2, U21 "any value"). -/
opaque Config.freeValue (w : Nat) (draw : Nat) : BitVec w

end Sys2Proof
end

