-- ==== Sys2Proof/Machine/State.lean ====
section
/-! DEFINITION. The state of THGN801-CORE: every element of spec 10_state.md rule R10, the host's side of the command port
(rule R24; 00_scope.md rule R7) and the counter of free values. -/

namespace Sys2Proof.Machine

/-- The payload buffer `B` (rules R11, R30) as (byte index, byte) cells in canonical form; see `Memory.wf`. -/
abbrev Memory := List Host.Cell

/-- A value of the microsecond counter: `TW` bits (rules R19, R21). -/
abbrev Time := BitVec Config.params.tw

/-- The error causes of 60_exceptions.md rule R141. -/
inductive ErrKind where
  /-- `ErrIllegal`: `op` is 0x0 or 0xB to 0xF. -/
  | illegal
  /-- `ErrReserved`: a "must be 0" field is not 0. -/
  | reserved
  /-- `ErrIndex`: buffer index above 12 or register number above 7. -/
  | index
  /-- `ErrCount`: SUM8 above 18, CRC8 above 19. -/
  | count
  /-- `ErrBcd`: a digit nibble above 9. -/
  | bcd
  /-- `ErrValue`: LDR to `BATT` with a non-zero upper nibble. -/
  | value
  deriving DecidableEq, Repr

/-- What the host, or the passing of time, does in the coming steps: the block's inputs `rst`, `cmd_valid`, `cmd` and the
microsecond tick (rules R24, R45, R170). DESIGN CHOICE (assumption 4), safe: every input sequence is a list of these. -/
inductive HostAct where
  /-- `rst` is asserted in this step. -/
  | rst
  /-- One microsecond passes and no word is presented. -/
  | idle
  /-- The word is presented and held until it is accepted; each step in which it is not, a microsecond passes. -/
  | hold (cmd : Word)
  /-- The word is presented for one step and withdrawn if it is not accepted. -/
  | offer (cmd : Word)
  deriving DecidableEq, Repr

/-- The whole state (rule R10), then the model's own two fields. -/
structure State where
  /-- `B[0..12]`, 13 bytes. -/
  mem : Memory
  /-- `TYPE`, the sensor-type code. -/
  typeCode : Word
  /-- `CHAN`, the channel number, unclamped. -/
  chan : Byte
  /-- `ROLL`, the rolling code. -/
  roll : Byte
  /-- `BATT`, the battery-flag nibble. -/
  batt : Nibble
  /-- `TEMP`, two's complement, units of 0.1 °C. -/
  temp : Word
  /-- `HUM`, relative humidity in percent. -/
  hum : Byte
  /-- `RES`, the result register. -/
  res : Byte
  /-- `BUSY`: a transmission is in progress. -/
  busy : Bool
  /-- `ERR`: a command was refused; sticky. -/
  err : Bool
  /-- `ERRCODE`, the error's code. -/
  errcode : BitVec 3
  /-- `ERRCW`, the refused command word. -/
  errcw : Word
  /-- `NEXT`, the "next edge" timestamp. -/
  next : Time
  /-- `TXK`, index of the bit cell being sent; 104 = trailer. -/
  txk : BitVec 7
  /-- `TX`, the output line; true = HIGH = carrier on. -/
  tx : Bool
  /-- `NOW`, the microsecond counter. -/
  now : Time
  /-- `SUMR`, working register of the simple-checksum accumulator. -/
  sumr : Byte
  /-- `CRCR`, working register of the CRC-8 generator. -/
  crcr : Byte
  /-- MODEL'S OWN: the coming inputs, first one first; an empty list is a host that presents nothing while time passes. -/
  host : List HostAct
  /-- MODEL'S OWN: how many free values have been drawn. -/
  draws : Nat
  deriving DecidableEq, Repr

/-- No step of this machine faults: the spec answers every word with an effect or an error entry (rule R51), and an error entry is
a next state (60_exceptions.md rule R142). So this type has no constructor, which is safe: there is no stop to rely on. -/
inductive Fault where
  deriving DecidableEq, Repr

/-- The refusals. -/
inductive Refusal where
  /-- Raised by `exec` for a command that has no meaning yet; no arm raises it now. Safe: the machine stops. -/
  | notModelled (mnemonic : String)
  deriving DecidableEq, Repr

/-- The machine right after power-on reset: the values of rule R22's table where it states one, and 0 (DESIGN CHOICE, assumption 1, unsafe)
where it says "unspecified" (`B`, `CHAN`, `ROLL`, `TEMP`, `HUM`, `RES`, `NEXT`, `TXK`, `SUMR`, `CRCR`, `NOW`). The host
presents nothing. -/
def State.reset : State :=
  { mem := []
    typeCode := 0xF824
    chan := 0
    roll := 0
    batt := 0
    temp := 0
    hum := 0
    res := 0
    busy := false
    err := false
    errcode := 0
    errcw := 0
    next := 0
    txk := 0
    tx := false
    now := 0
    sumr := 0
    crcr := 0
    host := []
    draws := 0 }

end Sys2Proof.Machine
end

