-- ==== Sys2Proof/Machine/Ops.lean ====
section
/-! DEFINITION. The shared operations: nibbles of a byte (spec 00_scope.md rule R6), the payload buffer (20_memory.md), free
values, taking an error (60_exceptions.md rule R142) and reset, its only exit (rules R143, R170). -/

namespace Sys2Proof.Machine

/-- `hi4(v)`: bits 7:4 (rule R6). -/
def hi4 (v : Byte) : Nibble := v.extractLsb' 4 4

/-- `lo4(v)`: bits 3:0 (rule R6). -/
def lo4 (v : Byte) : Nibble := v.extractLsb' 0 4

/-- `h || l`: the byte with high nibble `h` and low nibble `l` (rule R6). -/
def joinNibbles (h l : Nibble) : Byte := h ++ l

/-- `swap4(v)`: the byte with its two nibbles exchanged (rule R6). -/
def swap4 (v : Byte) : Byte := joinNibbles (lo4 v) (hi4 v)

/-- `zext_8` of a nibble (rule R6). -/
def zext8 (n : Nibble) : Byte := n.setWidth 8

/-! ### The payload buffer -/

/-- `NBYTES`: the buffer has byte indices 0 to 12 (rules R4, R11, R30). -/
def bufferSize : Nat := 13

/-- What a byte of the buffer that nothing has written reads as: DESIGN CHOICE (assumption 2), unsafe; rule R22 says "unspecified". -/
def unlistedByte : Byte := 0

/-- `B[i]`, the byte at index `i`. -/
def Memory.read : Memory → Nat → Byte
  | [], _ => unlistedByte
  | c :: m, i => if c.1 = i then c.2 else Memory.read m i

/-- The cells with index `i` holding `b`, canonical if the given ones are. -/
def Memory.put : Memory → Nat → Byte → Memory
  | [], i, b => if b = unlistedByte then [] else [(i, b)]
  | c :: m, i, b =>
    if i < c.1 then (if b = unlistedByte then c :: m else (i, b) :: c :: m)
    else if c.1 = i then (if b = unlistedByte then m else (i, b) :: m)
    else c :: Memory.put m i b

/-- `B[i] <- b`. Indices above 12 address nothing (rules R30, R144); no command reaches this with one
(DESIGN CHOICE, assumption 11, safe). -/
def Memory.write (m : Memory) (i : Nat) (b : Byte) : Memory :=
  if i < bufferSize then Memory.put m i b else m

/-- Cells at indices from `lo` on, strictly rising, inside the buffer, none equal to what an unlisted byte reads as. -/
def Memory.wfFrom : Nat → Memory → Bool
  | _, [] => true
  | lo, c :: m => decide (lo ≤ c.1 ∧ c.1 < bufferSize ∧ c.2 ≠ unlistedByte) && Memory.wfFrom (c.1 + 1) m

/-- The canonical form of the buffer. -/
def Memory.wf (m : Memory) : Bool := Memory.wfFrom 0 m

/-- The buffer with every one of its 13 bytes 0x00 (44_build.md rule R101, step 1). -/
def Memory.zeroFilled : Memory := (List.range bufferSize).foldl (fun m i => Memory.write m i 0x00) []

/-- The buffer with 13 free bytes, from draw number `d` on (rule R22). -/
def Memory.freeFilled (d : Nat) : Memory :=
  (List.range bufferSize).foldl (fun m i => Memory.write m i (Config.freeValue 8 (d + i))) []

/-! ### Free values of the working registers (DEDUCED, assumption 6, safe) -/

/-- After a command that used it, `SUMR`'s value is "unobservable and unspecified" (rule R18): a free value. -/
def State.releaseSumr (s : State) : State :=
  { s with sumr := Config.freeValue 8 s.draws, draws := s.draws + 1 }

/-- After a command that used it, `CRCR`'s value is "unobservable and unspecified" (rule R18): a free value. -/
def State.releaseCrcr (s : State) : State :=
  { s with crcr := Config.freeValue 8 s.draws, draws := s.draws + 1 }

/-- After a frame, `NEXT` (rule R19) and `TXK` (rule R16) are meaningless: free values. -/
def State.releaseFrame (s : State) : State :=
  { s with
    next := Config.freeValue Config.params.tw s.draws
    txk := Config.freeValue 7 (s.draws + 1)
    draws := s.draws + 2 }

/-! ### Errors and reset -/

/-- The code of an error (rule R141). -/
def ErrKind.code : ErrKind → BitVec 3
  | .illegal => 1
  | .reserved => 2
  | .index => 3
  | .count => 4
  | .bcd => 5
  | .value => 6

/-- Error entry, `raise E(cmd)` (rule R142): "exactly this ... and nothing else". -/
def raise (e : ErrKind) (cmd : Word) (s : State) : State :=
  { s with err := true, errcode := e.code, errcw := cmd }

/-- `rst` asserted (rules R170, R171): rule R22's values, and a free value for everything it calls "unspecified"; what the host does
next is not the block's to reset (DEDUCED, assumption 5, safe). It is the only way back from an error (rule R143). -/
def assertReset (s : State) : State :=
  let d := s.draws
  { mem := Memory.freeFilled d
    typeCode := 0xF824
    chan := Config.freeValue 8 (d + 13)
    roll := Config.freeValue 8 (d + 14)
    batt := 0
    temp := Config.freeValue 16 (d + 15)
    hum := Config.freeValue 8 (d + 16)
    res := Config.freeValue 8 (d + 17)
    busy := false
    err := false
    errcode := 0
    errcw := 0
    next := Config.freeValue Config.params.tw (d + 18)
    txk := Config.freeValue 7 (d + 19)
    tx := false
    now := Config.freeValue Config.params.tw (d + 20)
    sumr := Config.freeValue 8 (d + 21)
    crcr := Config.freeValue 8 (d + 22)
    host := s.host
    draws := d + 23 }

end Sys2Proof.Machine
end

