-- ==== Sys2Proof/Machine/Operands.lean ====
section
/-! DEFINITION. Operand forms: byte, nibble and bit of the payload buffer (spec 20_memory.md rules R30, R32, R34) and the
register file (10_state.md rule R12). -/

namespace Sys2Proof.Machine

/-- `nib(B, n)`, payload nibble `n`: the high half of byte `n div 2` if `n` is even, the low half if it is odd (rule R32). -/
def nib (m : Memory) (n : Nat) : Nibble :=
  if n % 2 = 0 then hi4 (Memory.read m (n / 2)) else lo4 (Memory.read m (n / 2))

/-- `ORDER = [4, 5, 6, 7, 0, 1, 2, 3]`: the bit of its byte that is sent `j`-th (rule R34). -/
def sendOrder (j : Nat) : Nat := if j < 4 then j + 4 else j - 4

/-- `bitk(B, k) = B[k div 8][ORDER[k mod 8]]`, the `k`-th bit of a frame (rule R34). -/
def bitk (m : Memory) (k : Nat) : Bool := (Memory.read m (k / 8)).getLsbD (sendOrder (k % 8))

/-- `R[a]`, the register-file entry a command reads (rules R12, R63); `BATT` reads with bits 7:4 zero. Entries 8 to 15 do not
exist, and no command reaches this with one (DESIGN CHOICE, assumption 11, safe). -/
def readReg (s : State) (a : Nibble) : Byte :=
  match a.toNat with
  | 0 => s.typeCode.extractLsb' 8 8
  | 1 => s.typeCode.extractLsb' 0 8
  | 2 => s.chan
  | 3 => s.roll
  | 4 => zext8 s.batt
  | 5 => s.temp.extractLsb' 0 8
  | 6 => s.temp.extractLsb' 8 8
  | 7 => s.hum
  | _ => 0

/-- `v` with bits 15:8 replaced by `b`. -/
def setHighByte (v : Word) (b : Byte) : Word := b ++ v.extractLsb' 0 8

/-- `v` with bits 7:0 replaced by `b`. -/
def setLowByte (v : Word) (b : Byte) : Word := v.extractLsb' 8 8 ++ b

/-- `R[a] <- v` (rules R12, R62): one half of `TYPE` or `TEMP` leaves the other half as it was, and `BATT` takes bits 3:0 (LDR has
checked that bits 7:4 are 0). Entries 8 to 15 do not exist, and no command reaches this with one (assumption 11). -/
def writeReg (a : Nibble) (v : Byte) (s : State) : State :=
  match a.toNat with
  | 0 => { s with typeCode := setHighByte s.typeCode v }
  | 1 => { s with typeCode := setLowByte s.typeCode v }
  | 2 => { s with chan := v }
  | 3 => { s with roll := v }
  | 4 => { s with batt := lo4 v }
  | 5 => { s with temp := setLowByte s.temp v }
  | 6 => { s with temp := setHighByte s.temp v }
  | 7 => { s with hum := v }
  | _ => s

end Sys2Proof.Machine
end

