-- ==== Sys2Proof/Machine/Access.lean ====
section
/-! DEFINITION. The access commands LDB, RDB, LDR, RDR (spec 40_access.md rules R60 to R64). -/

namespace Sys2Proof.Machine

/-- **LDB a, imm8** (rule R60). -/
def execLdb (a : Nibble) (imm8 : Byte) (s : State) : Host.Outcome State Fault Refusal :=
  if 12 < a.toNat then .next (raise .index (encode (.ldb a imm8)) s)
  else .next { s with mem := Memory.write s.mem a.toNat imm8 }

/-- **RDB a** (rule R61). -/
def execRdb (a : Nibble) (imm8 : Byte) (s : State) : Host.Outcome State Fault Refusal :=
  if imm8 ≠ 0 then .next (raise .reserved (encode (.rdb a imm8)) s)
  else if 12 < a.toNat then .next (raise .index (encode (.rdb a imm8)) s)
  else .next { s with res := Memory.read s.mem a.toNat }

/-- **LDR a, imm8** (rules R62, R64). -/
def execLdr (a : Nibble) (imm8 : Byte) (s : State) : Host.Outcome State Fault Refusal :=
  if 7 < a.toNat then .next (raise .index (encode (.ldr a imm8)) s)
  else if a.toNat = 4 ∧ hi4 imm8 ≠ 0 then .next (raise .value (encode (.ldr a imm8)) s)
  else .next (writeReg a imm8 s)

/-- **RDR a** (rule R63). -/
def execRdr (a : Nibble) (imm8 : Byte) (s : State) : Host.Outcome State Fault Refusal :=
  if imm8 ≠ 0 then .next (raise .reserved (encode (.rdr a imm8)) s)
  else if 7 < a.toNat then .next (raise .index (encode (.rdr a imm8)) s)
  else .next { s with res := readReg s a }

end Sys2Proof.Machine
end

