-- ==== Sys2Proof/Machine/Bcd.lean ====
section
/-! DEFINITION. The BCD encoder and decoder, BCDE and BCDD (spec 43_bcd.md rules R90 to R98). -/

namespace Sys2Proof.Machine

/-- The six nibbles `(d0, d1, d2, s, h0, h1)` of rule R94. -/
structure BcdNibbles where
  d0 : Nibble
  d1 : Nibble
  d2 : Nibble
  s : Nibble
  h0 : Nibble
  h1 : Nibble
  deriving DecidableEq, Repr

/-- The decimal digit `v mod 10` as a nibble. -/
def digit (v : Nat) : Nibble := BitVec.ofNat 4 (v % 10)

/-- `t10 = |TEMP|`, an unsigned number 0 to 32768 (rule R91). -/
def magnitude (temp : Word) : Nat := temp.toInt.natAbs

/-- `bcdEncode(TEMP, HUM)` (rules R91 to R94). -/
def bcdEncode (temp : Word) (hum : Byte) : BcdNibbles :=
  { d0 := digit (magnitude temp)
    d1 := digit (magnitude temp / 10)
    d2 := digit (magnitude temp / 100)
    s := if temp.toInt < 0 then 0x8 else 0x0
    h0 := digit hum.toNat
    h1 := digit (hum.toNat / 10) }

/-- A nibble that is a decimal digit. -/
def isDigit (n : Nibble) : Bool := decide (n.toNat ≤ 9)

/-- `bcdDecode(d0, d1, d2, s, h0, h1)`: `(TEMP, HUM)`, defined when all five digits are at most 9 (rules R95, R96). -/
def bcdDecode (n : BcdNibbles) : Option (Word × Byte) :=
  if isDigit n.d0 && isDigit n.d1 && isDigit n.d2 && isDigit n.h0 && isDigit n.h1 then
    let m := n.d0.toNat + 10 * n.d1.toNat + 100 * n.d2.toNat
    some (if n.s.getLsbD 3 then BitVec.ofInt 16 (-(m : Int)) else BitVec.ofNat 16 m,
      BitVec.ofNat 8 (n.h0.toNat + 10 * n.h1.toNat))
  else none

/-- The six nibbles where the payload holds them: nibbles 15 to 20 (rule R95). -/
def bcdNibblesOf (m : Memory) : BcdNibbles :=
  { d0 := lo4 (Memory.read m 7)
    d1 := hi4 (Memory.read m 8)
    d2 := lo4 (Memory.read m 8)
    s := hi4 (Memory.read m 9)
    h0 := lo4 (Memory.read m 9)
    h1 := hi4 (Memory.read m 10) }

/-- The seven data nibbles written into the buffer, the battery nibble kept and the reserved nibble 0 (rule R90). -/
def storeBcd (n : BcdNibbles) (m : Memory) : Memory :=
  let m := Memory.write m 7 (joinNibbles (hi4 (Memory.read m 7)) n.d0)
  let m := Memory.write m 8 (joinNibbles n.d1 n.d2)
  let m := Memory.write m 9 (joinNibbles n.s n.h0)
  Memory.write m 10 (joinNibbles n.h1 0x0)

/-- **BCDE** (rule R90). -/
def execBcde (a : Nibble) (imm8 : Byte) (s : State) : Host.Outcome State Fault Refusal :=
  if a ≠ 0 ∨ imm8 ≠ 0 then .next (raise .reserved (encode (.bcde a imm8)) s)
  else .next { s with mem := storeBcd (bcdEncode s.temp s.hum) s.mem }

/-- **BCDD** (rule R95). -/
def execBcdd (a : Nibble) (imm8 : Byte) (s : State) : Host.Outcome State Fault Refusal :=
  if a ≠ 0 ∨ imm8 ≠ 0 then .next (raise .reserved (encode (.bcdd a imm8)) s)
  else
    match bcdDecode (bcdNibblesOf s.mem) with
    | none => .next (raise .bcd (encode (.bcdd a imm8)) s)
    | some (t, h) => .next { s with temp := t, hum := h }

end Sys2Proof.Machine
end

