-- ==== Sys2Proof/Machine/Crc8.lean ====
section
/-! DEFINITION. The CRC-8 generator and CRC8 (spec 42_crc8.md rules R80 to R88). The loop is rule R80's, flush pass and all; the
conventional form of rule R84 is a law about it, never its definition (93_implementation_defined.md U22). -/

namespace Sys2Proof.Machine

/-- One round: bit 7 is tested before the shift, and 0x07 is XORed in if it was 1 (rule R82). -/
def crcRound (c : Byte) : Byte := if c.getLsbD 7 then (c <<< 1) ^^^ 0x07 else c <<< 1

/-- The four rounds of one iteration. -/
def crcRounds4 (c : Byte) : Byte := crcRound (crcRound (crcRound (crcRound c)))

/-- The micro-operation `absorb(n)`: the nibble goes into bits 3:0, then four rounds (rules R83, R87). -/
def crcAbsorb (c : Byte) (n : Nibble) : Byte := crcRounds4 (c ^^^ zext8 n)

/-- The micro-operation `flush`: four rounds with nothing XORed in (rule R87). -/
def crcFlush (c : Byte) : Byte := crcRounds4 c

/-- `CRCR` before the swap: iterations `i = 7 .. count + 7`, of which those with `i < count + 7` XOR in nibble `i` (rule R80). -/
def crcRegister (m : Memory) (count : Nat) : Byte :=
  (List.range (count + 1)).foldl
    (fun c j => if 7 + j < count + 7 then crcAbsorb c (nib m (7 + j)) else crcFlush c) 0x00

/-- `crc8(B, count)` (rules R80, R85). -/
def crc8 (m : Memory) (count : Nat) : Byte := swap4 (crcRegister m count)

/-- **CRC8 count** (rule R80). -/
def execCrc8 (a : Nibble) (imm8 : Byte) (s : State) : Host.Outcome State Fault Refusal :=
  if a ≠ 0 then .next (raise .reserved (encode (.crc8 a imm8)) s)
  else if 19 < imm8.toNat then .next (raise .count (encode (.crc8 a imm8)) s)
  else .next { s with res := crc8 s.mem imm8.toNat }.releaseCrcr

end Sys2Proof.Machine
end

