-- ==== Sys2Proof/Machine/Sum8.lean ====
section
/-! DEFINITION. The simple-checksum accumulator and SUM8 (spec 41_sum8.md rules R70 to R76). -/

namespace Sys2Proof.Machine

/-- The seed: the low nibble of `B[3]` (rule R71). -/
def sumSeed (m : Memory) : Byte := zext8 (lo4 (Memory.read m 3))

/-- One whole byte: both its nibbles are added (rule R72). -/
def sumByte (acc b : Byte) : Byte := acc + zext8 (hi4 b) + zext8 (lo4 b)

/-- `SUMR` after the seed and the `n` whole bytes `B[4]` to `B[3 + n]` (rule R72). -/
def sumBytes (m : Memory) (n : Nat) : Byte :=
  (List.range n).foldl (fun acc j => sumByte acc (Memory.read m (4 + j))) (sumSeed m)

/-- `SUMR` before the swap: the odd-count step adds the high nibble of the next byte, "bit-for-bit" (rule R73). -/
def sumRegister (m : Memory) (count : Nat) : Byte :=
  if count % 2 = 1 then sumBytes m (count / 2) + zext8 (hi4 (Memory.read m (4 + count / 2)))
  else sumBytes m (count / 2)

/-- `simpleChecksum(B, count)` (rules R70, R74). -/
def simpleChecksum (m : Memory) (count : Nat) : Byte := swap4 (sumRegister m count)

/-- **SUM8 count** (rule R70). -/
def execSum8 (a : Nibble) (imm8 : Byte) (s : State) : Host.Outcome State Fault Refusal :=
  if a ≠ 0 then .next (raise .reserved (encode (.sum8 a imm8)) s)
  else if 18 < imm8.toNat then .next (raise .count (encode (.sum8 a imm8)) s)
  else .next { s with res := simpleChecksum s.mem imm8.toNat }.releaseSumr

end Sys2Proof.Machine
end

