-- ==== Sys2Proof/Machine/Build.lean ====
section
/-! DEFINITION. The payload assembler and BUILD (spec 44_build.md rules R100 to R113; layout 20_memory.md rule R31). -/

namespace Sys2Proof.Machine

/-- `min(CHAN, 15)[3:0]`: saturation, not masking (rule R103). -/
def channelNibble (chan : Byte) : Nibble := if 15 < chan.toNat then 15 else lo4 chan

/-- Steps 1 to 7 of rule R100: everything but the two checksum bytes, which are still 0. -/
def buildFields (typeCode : Word) (chan roll : Byte) (batt : Nibble) (temp : Word) (hum : Byte) : Memory :=
  let d := bcdEncode temp hum
  let m := Memory.zeroFilled
  let m := Memory.write m 0 0xFF
  let m := Memory.write m 1 0xFF
  let m := Memory.write m 2 0xFF
  let m := Memory.write m 3 (joinNibbles 0xA (typeCode.extractLsb' 12 4))
  let m := Memory.write m 4 (joinNibbles (typeCode.extractLsb' 8 4) (typeCode.extractLsb' 4 4))
  let m := Memory.write m 5 (joinNibbles (typeCode.extractLsb' 0 4) (channelNibble chan))
  let m := Memory.write m 6 roll
  let m := Memory.write m 7 (joinNibbles batt d.d0)
  let m := Memory.write m 8 (joinNibbles d.d1 d.d2)
  let m := Memory.write m 9 (joinNibbles d.s d.h0)
  Memory.write m 10 (joinNibbles d.h1 0x0)

/-- Step 8: the simple checksum, over the buffer as steps 1 to 7 left it (rule R108). -/
def storeSum (m : Memory) : Memory := Memory.write m 11 (simpleChecksum m 15)

/-- Step 9: the CRC (rule R109). -/
def storeCrc (m : Memory) : Memory := Memory.write m 12 (crc8 m 15)

/-- `build(TYPE, CHAN, ROLL, BATT, TEMP, HUM)` (rule R100). -/
def build (typeCode : Word) (chan roll : Byte) (batt : Nibble) (temp : Word) (hum : Byte) : Memory :=
  storeCrc (storeSum (buildFields typeCode chan roll batt temp hum))

/-- **BUILD** (rule R100): `B` and the scratch `SUMR`, `CRCR`. -/
def execBuild (a : Nibble) (imm8 : Byte) (s : State) : Host.Outcome State Fault Refusal :=
  if a ≠ 0 ∨ imm8 ≠ 0 then .next (raise .reserved (encode (.build a imm8)) s)
  else .next { s with mem := build s.typeCode s.chan s.roll s.batt s.temp s.hum }.releaseSumr.releaseCrcr

end Sys2Proof.Machine
end

