-- ==== Sys2Proof/Machine/Timer.lean ====
section
/-! DEFINITION. The timer frontend (spec 60_exceptions.md rules R150 to R153), for any counter width `w`; the block's is `TW`. -/

namespace Sys2Proof.Machine

/-- `x +T y`, modulo `2^w` (rule R151). -/
def addT {w : Nat} (x y : BitVec w) : BitVec w := x + y

/-- `x -T y`, modulo `2^w` (rule R151). -/
def subT {w : Nat} (x y : BitVec w) : BitVec w := x - y

/-- `elapsed(from, to) = to -T from` (rule R151). -/
def elapsed {w : Nat} (earlier later : BitVec w) : BitVec w := subT later earlier

/-- `reached(now, t) = ((now -T t) < 2^(w-1))` (rule R152). -/
def reached {w : Nat} (now t : BitVec w) : Bool := decide ((subT now t).toNat < 2 ^ (w - 1))

/-- The residual wait: `t -T now` when not reached and 0 when reached, "never a negative duration" (rule R152). -/
def residualWait {w : Nat} (now t : BitVec w) : BitVec w := if reached now t then 0 else subT t now

/-- A number of microseconds as a counter value. -/
def micros (w n : Nat) : BitVec w := BitVec.ofNat w n

/-- `NOW` one microsecond later; it wraps to 0 after `2^TW - 1` (rules R21, R150). -/
def State.countMicrosecond (s : State) : State := { s with now := addT s.now (micros Config.params.tw 1) }

end Sys2Proof.Machine
end

