-- ==== Sys2Proof/Machine/Xmit.lean ====
section
/-! DEFINITION. The Manchester encoder and XMIT (spec 45_xmit.md rules R120 to R138). The encoder's own four registers are viewed as
a `Frame`; its functions take the parameters and the counter width as arguments, and the block uses `Config.params`.
Where in its cell the encoder is needs no further state: the first sub-interval of cell `k` is the one with `TX = bitk(B, k)`, the
second the one with the other level (rules R126, R127): DEDUCED, assumption 8, safe. -/

namespace Sys2Proof

/-- `ON_US`, the HIGH part of a 1 bit (rules R126, R128). -/
def Params.onUs (p : Params) : Nat := onLength p.unitUs p.tuningNum p.tuningDen p.pulseShortenUs

/-- The length of a bit cell, `2*UNIT_US` (rule R124). -/
def Params.cellUs (p : Params) : Nat := 2 * p.unitUs

/-- The length of the first sub-interval of a cell: `ON_US` for a 1, `ZERO_LOW_US` for a 0 (rules R126, R127). -/
def Params.firstUs (p : Params) (bit : Bool) : Nat := if bit then p.onUs else p.zeroLowUs

namespace Machine

/-- The encoder's registers `BUSY`, `TX`, `TXK`, `NEXT` (rule R120). -/
structure Frame (w : Nat) where
  busy : Bool
  tx : Bool
  txk : BitVec 7
  next : BitVec w
  deriving DecidableEq, Repr

/-- The number of bits of a frame (rule R122). -/
def frameBits : Nat := 104

/-- The start of cell `k` at `S_k = NEXT`: the deadline advances by one full bit period and the cell's first level is driven (rules
R124 to R127). -/
def Frame.beginCell {w : Nat} (p : Params) (m : Memory) (k : Nat) (f : Frame w) : Frame w :=
  { f with
    next := addT f.next (micros w p.cellUs)
    tx := bitk m k
    txk := BitVec.ofNat 7 k }

/-- The accepting step of XMIT: `BUSY <- 1; TX <- 0; NEXT <- NOW; TXK <- 0`, and cell 0 starts in the same step (rule R123). -/
def Frame.start {w : Nat} (p : Params) (m : Memory) (now : BitVec w) : Frame w :=
  Frame.beginCell p m 0 { busy := true, tx := false, txk := 0, next := now }

/-- The encoder is in the first sub-interval of a cell. -/
def Frame.inFirst {w : Nat} (m : Memory) (f : Frame w) : Bool :=
  decide (f.txk.toNat < frameBits) && (f.tx == bitk m f.txk.toNat)

/-- The time the encoder waits for: the mid-cell edge at `S +T ON_US` or `S +T ZERO_LOW_US`, with `S = NEXT -T 2*UNIT_US`, and else
`NEXT`, the end of the cell or of the trailer (rules R120, R126, R127, R130). -/
def Frame.deadline {w : Nat} (p : Params) (m : Memory) (f : Frame w) : BitVec w :=
  if f.inFirst m then
    addT (subT f.next (micros w p.cellUs)) (micros w (p.firstUs (bitk m f.txk.toNat)))
  else f.next

/-- The end of cell 103: the trailer's LOW level if the last bit is 0 (rule R130), the end of the frame if it is 1 (rule R131). -/
def Frame.afterLastCell {w : Nat} (p : Params) (m : Memory) (f : Frame w) : Frame w :=
  if bitk m 103 then { f with txk := 104, tx := false, busy := false }
  else { f with txk := 104, tx := false, next := addT f.next (micros w p.unitUs) }

/-- What the encoder does when its wait completes: the mid-cell edge, the next cell, the trailer or the end (rule R120). -/
def Frame.advance {w : Nat} (p : Params) (m : Memory) (f : Frame w) : Frame w :=
  if f.inFirst m then { f with tx := !f.tx }
  else if f.txk.toNat + 1 < frameBits then Frame.beginCell p m (f.txk.toNat + 1) f
  else if f.txk.toNat < frameBits then f.afterLastCell p m
  else { f with tx := false, busy := false }

/-- The encoder at one instant: while its wait has completed it goes on at once, without re-basing `NEXT` (rule R129). At most `fuel`
waits complete. Its own actions take no time (DEDUCED, assumption 9; unsafe for a real transmitter's edges). -/
def Frame.settle {w : Nat} (p : Params) (m : Memory) (now : BitVec w) : Nat → Frame w → Frame w
  | 0, f => f
  | fuel + 1, f =>
    if f.busy && reached now (f.deadline p m) then Frame.settle p m now fuel (f.advance p m) else f

/-- The number of waits of a whole frame, two a cell and the trailer's: no instant completes more. -/
def frameWaits : Nat := 2 * frameBits + 1

/-- The encoder's registers of a state. -/
def State.frame (s : State) : Frame Config.params.tw :=
  { busy := s.busy, tx := s.tx, txk := s.txk, next := s.next }

/-- A state with the encoder's registers replaced. -/
def State.setFrame (s : State) (f : Frame Config.params.tw) : State :=
  { s with busy := f.busy, tx := f.tx, txk := f.txk, next := f.next }

/-- The encoder's registers after it has acted; when that ended the frame, `NEXT` and `TXK` are free again (rules R16, R19). -/
def State.takeFrame (s : State) (f : Frame Config.params.tw) : State :=
  if s.busy && !f.busy then (s.setFrame f).releaseFrame else s.setFrame f

/-- The encoder does what is due at this instant. -/
def State.runEncoder (s : State) : State :=
  s.takeFrame (s.frame.settle Config.params s.mem s.now frameWaits)

/-- One microsecond passes: `NOW` counts and the encoder acts "on the tick at which `NOW` becomes `t`" (rules R150, R153). -/
def tick (s : State) : State := s.countMicrosecond.runEncoder

/-- **XMIT** (rules R120, R123): the accepting step; the rest of the frame is the encoder's, tick by tick. -/
def execXmit (a : Nibble) (imm8 : Byte) (s : State) : Host.Outcome State Fault Refusal :=
  if a ≠ 0 ∨ imm8 ≠ 0 then .next (raise .reserved (encode (.xmit a imm8)) s)
  else .next (s.setFrame (Frame.start Config.params s.mem s.now))

end Machine

end Sys2Proof
end

