-- ==== Sys2Proof/Machine/Dispatch.lean ====
section
/-! DEFINITION. The effect of an accepted command (spec 30_encoding.md rules R45, R49): one meaning per constructor. Whether a
command is accepted is the port's to say (rule R46; Machine/Port.lean): DESIGN CHOICE, assumption 10, safe. -/

namespace Sys2Proof.Machine

def exec (i : Instr) (s : State) : Host.Outcome State Fault Refusal :=
  match i with
  | .ldb a imm8 => Sys2Proof.Machine.execLdb a imm8 s
  | .rdb a imm8 => Sys2Proof.Machine.execRdb a imm8 s
  | .ldr a imm8 => Sys2Proof.Machine.execLdr a imm8 s
  | .rdr a imm8 => Sys2Proof.Machine.execRdr a imm8 s
  | .sum8 a imm8 => Sys2Proof.Machine.execSum8 a imm8 s
  | .crc8 a imm8 => Sys2Proof.Machine.execCrc8 a imm8 s
  | .bcde a imm8 => Sys2Proof.Machine.execBcde a imm8 s
  | .bcdd a imm8 => Sys2Proof.Machine.execBcdd a imm8 s
  | .build a imm8 => Sys2Proof.Machine.execBuild a imm8 s
  | .xmit a imm8 => Sys2Proof.Machine.execXmit a imm8 s

end Sys2Proof.Machine
end

