-- ==== Sys2Proof/Machine/Flags.lean ====
section
/-! DEFINITION. The status flags and the output wires (spec 10_state.md rules R15, R17, R24; 30_encoding.md rule R46). The block has
no arithmetic condition codes (rule R17), so no command computes a flag. -/

namespace Sys2Proof.Machine

/-- `cmd_ready = (BUSY = 0) and (ERR = 0)` (rules R24, R46). -/
def State.cmdReady (s : State) : Bool := !s.busy && !s.err

/-- The output signals of rule R24. -/
structure Outputs where
  cmdReady : Bool
  res : Byte
  busy : Bool
  err : Bool
  errcode : BitVec 3
  errcw : Word
  tx : Bool
  deriving DecidableEq, Repr

/-- What the block drives on its output wires (rule R24). -/
def State.outputs (s : State) : Outputs :=
  { cmdReady := s.cmdReady
    res := s.res
    busy := s.busy
    err := s.err
    errcode := s.errcode
    errcw := s.errcw
    tx := s.tx }

end Sys2Proof.Machine
end

