-- ==== Sys2Proof/Machine/Port.lean ====
section
/-! DEFINITION. The command port and the order in which the agents move (spec 00_scope.md rule R7; 30_encoding.md rules R45, R46, R51;
70_reset_and_hazards.md rules R170, R187). -/

namespace Sys2Proof.Machine

/-- The port accepts the word: the command's effect, or `ErrIllegal` for a word that is none (rule R51). -/
def accept (cmd : Word) (s : State) : Host.Outcome State Fault Refusal :=
  match decode cmd with
  | .ok i => exec i s
  | .error (.illegalOp _) => .next (raise .illegal cmd s)

/-- One step of the block and its surroundings. `rst` overrides everything (rule R170). A presented word is accepted exactly when
`cmd_ready` is 1, in the step in which it is presented (rule R45); otherwise a microsecond passes and the word waits or is
withdrawn (rules R45, R187). With no word presented a microsecond passes. That acceptance counts no microsecond and every other step
without reset counts one is a DESIGN CHOICE (assumption 3): unsafe for claims that count steps as time across a command. -/
def portStep (s : State) : Host.Outcome State Fault Refusal :=
  match s.host with
  | [] => .next (tick s)
  | .rst :: rest => .next (assertReset { s with host := rest })
  | .idle :: rest => .next (tick { s with host := rest })
  | .hold cmd :: rest =>
    if s.cmdReady then accept cmd { s with host := rest } else .next (tick s)
  | .offer cmd :: rest =>
    if s.cmdReady then accept cmd { s with host := rest } else .next (tick { s with host := rest })

/-- The word is presented at the command port, before whatever the host does next. -/
def presentWord (cmd : Word) (s : State) : State := { s with host := .hold cmd :: s.host }

end Sys2Proof.Machine
end

