-- ==== Sys2Proof/Machine/Step.lean ====
section
/-! DEFINITION. The step, and the placing of a command where the step takes its next one. -/

namespace Sys2Proof.Machine

/-- One step: see `portStep`. -/
def step (s : State) : Host.Outcome State Fault Refusal := portStep s

/-- The state with the command word of an opcode-table row presented at the command port (rule R45): commands come from there and from
nowhere else (10_state.md rule R16). The next step accepts and runs it if `cmd_ready` is 1, as it is after reset. -/
def State.withFetchWord (s : State) (nbits w : Nat) : State := presentWord (tableWord nbits w) s

end Sys2Proof.Machine
end

