-- ==== Sys2Proof/Machine/RefHost.lean ====
section
/-! DEFINITION. The host's side, outside the block: the pseudo-instructions (spec 30_encoding.md rule R54) and the reference host
(70_reset_and_hazards.md rules R173, R174 and R180 to R184), which "a model of the block need not include". Nothing in the block's step uses
this file (DESIGN CHOICE, assumption 13, safe). -/

namespace Sys2Proof.Machine

/-- The pseudo-instructions of rule R54. -/
inductive Pseudo where
  /-- `SUM8` with no operand. -/
  | sum8
  /-- `CRC8` with no operand. -/
  | crc8
  /-- `LDTYPE v16`. -/
  | ldtype (v : Word)
  /-- `LDTEMP s16`, the signed number in two's complement. -/
  | ldtemp (v : Word)
  /-- `LDHUM v8`. -/
  | ldhum (v : Byte)
  /-- `SEND`. -/
  | send
  deriving DecidableEq, Repr

/-- The expansions of rule R54. -/
def Pseudo.expand : Pseudo → List Instr
  | .sum8 => [.sum8 0 15]
  | .crc8 => [.crc8 0 15]
  | .ldtype v => [.ldr 0 (v.extractLsb' 8 8), .ldr 1 (v.extractLsb' 0 8)]
  | .ldtemp v => [.ldr 5 (v.extractLsb' 0 8), .ldr 6 (v.extractLsb' 8 8)]
  | .ldhum v => [.ldr 7 v]
  | .send => [.build 0 0, .xmit 0 0]

/-- Commands presented one after another, each held until it is accepted (rules R45, R187). -/
def present (is : List Instr) : List HostAct := is.map (fun i => .hold (encode i))

/-- The source's SensorIdentity (10_state.md rule R13), each field as wide as the register that takes it: a channel above 15 can be
presented, and BUILD saturates it. -/
structure SensorIdentity where
  typeCode : Word
  channel : Byte
  rollingCode : Byte
  batteryFlag : Nibble
  deriving DecidableEq, Repr

/-- The identity at process start: the type code "fixed at 0xF824" and the battery "normally ok", 0 (10_state.md rule R13); the channel is
the user's, and the rolling code comes from the external generator (rule R174). -/
def SensorIdentity.start (channel rollingCode : Byte) : SensorIdentity :=
  { typeCode := 0xF824, channel := channel, rollingCode := rollingCode, batteryFlag := 0 }

/-- The rolling code is "an externally supplied random value in [1,254]" (rule R174): the generator's range, which neither the host's
state nor the block checks. -/
def SensorIdentity.generated (id : SensorIdentity) : Bool := decide (1 ≤ id.rollingCode.toNat ∧ id.rollingCode.toNat ≤ 254)

/-- The commands that bring an identity to a block after reset: `TYPE` and `BATT` "need be written only to change them" (rule R173). -/
def SensorIdentity.load (id : SensorIdentity) : List Instr :=
  (if id.typeCode = 0xF824 then [] else (Pseudo.ldtype id.typeCode).expand)
    ++ [.ldr 2 id.channel, .ldr 3 id.rollingCode]
    ++ (if id.batteryFlag = 0 then [] else [.ldr 4 (zext8 id.batteryFlag)])

/-- The source's SensorReading (10_state.md rule R14). -/
structure SensorReading where
  temp : Word
  hum : Byte
  deriving DecidableEq, Repr

/-- The commands that bring a reading to the block. -/
def SensorReading.load (r : SensorReading) : List Instr := (Pseudo.ldtemp r.temp).expand ++ (Pseudo.ldhum r.hum).expand

/-- The reference host's state, the five parts rule R180 lists; `lastTransmission` is none until the first transmission (assumption
13). -/
structure RefHost where
  elapsedSeconds : Nat
  pending : Bool
  lastTransmission : Option Nat
  identity : SensorIdentity
  reading : SensorReading
  deriving DecidableEq, Repr

/-- "elapsed-seconds = 0; pending = true" (rule R180); the identity is the one fixed at process start (rule R174, `SensorIdentity.start`);
the starting reading is the caller's (91_not_in_source.md N9). Rule R180 gives the last-transmission timestamp no
starting value: it starts as none, "no transmission yet" (DESIGN CHOICE, assumption 13, safe). -/
def RefHost.init (identity : SensorIdentity) (reading : SensorReading) : RefHost :=
  { elapsedSeconds := 0, pending := true, lastTransmission := none, identity := identity, reading := reading }

/-- What the host presents first after reset: the identity, once, and the reading (rules R173, R174). -/
def RefHost.boot (h : RefHost) : List HostAct := present (h.identity.load ++ h.reading.load)

/-- Whether a second-tick is due: at least 1000 ms since the last one, by the host's own wrapping millisecond clock (rules R181, R184). -/
def secondDue {w : Nat} (last now : BitVec w) : Bool := decide (1000 ≤ (elapsed last now).toNat)

/-- The second-tick (rule R181). -/
def RefHost.secondTick (h : RefHost) : RefHost :=
  { h with elapsedSeconds := h.elapsedSeconds + 1, pending := true }

/-- The condition under which the host sends (rule R182; default interval 53). -/
def RefHost.due (interval : Nat) (h : RefHost) : Bool := h.elapsedSeconds % interval == 0 && h.pending

/-- The test-mode policy for the temperature (rule R183). -/
def nextTemp (temp : Word) : Word := if 450 < (temp + 1).toInt then 190 else temp + 1

/-- The test-mode policy for the humidity (rule R183). -/
def nextHum (hum : Byte) : Byte := if 95 < (hum + 1).toNat then 30 else hum + 1

/-- One increment of the test-mode policy (rule R183). -/
def SensorReading.nextReading (r : SensorReading) : SensorReading := { temp := nextTemp r.temp, hum := nextHum r.hum }

/-- One transmission (rule R182): the host's new state, and what it presents at the port: `BUILD` and `XMIT` with the identity and reading
the block holds, then LDR of the new reading. The identity stays as it is (rule R180: "fixed"). -/
def RefHost.transmit (time : Nat) (h : RefHost) : RefHost × List HostAct :=
  ({ h with
      pending := false
      lastTransmission := some time
      reading := h.reading.nextReading },
    present (Pseudo.send.expand ++ h.reading.nextReading.load))

end Sys2Proof.Machine
end

