-- ==== Sys2Proof/Machine/Wave.lean ====
section
/-! DEFINITION. The waveform of a frame as a function of the payload, and its decoding (spec 45_xmit.md rules R131 to R134). These are
the spec's functions `Wave` and `decodeWave`; the machine's `TX` is claimed to follow the first. -/

namespace Sys2Proof.Machine

/-- The drive events of cell `k`, offsets in microseconds from `N0` (rule R132). -/
def cellEvents (p : Params) (m : Memory) (k : Nat) : List (Nat × Bool) :=
  [(p.cellUs * k, bitk m k), (p.cellUs * k + p.firstUs (bitk m k), !bitk m k)]

/-- `E`, the offset at which the frame ends (rule R131). -/
def frameEnd (p : Params) (m : Memory) : Nat := if bitk m 103 then 208 * p.unitUs else 209 * p.unitUs

/-- `Wave(B)` (rule R132). -/
def wave (p : Params) (m : Memory) : List (Nat × Bool) :=
  (List.range frameBits).flatMap (cellEvents p m)
    ++ (if bitk m 103 then [] else [(208 * p.unitUs, false)])
    ++ [(frameEnd p m, false)]

/-- The level of `TX` at offset `t`: that of the last event whose offset is at most `t`, LOW before the first (rule R132). -/
def levelAt (events : List (Nat × Bool)) (t : Nat) : Bool :=
  events.foldl (fun level e => if e.1 ≤ t then e.2 else level) false

/-- Bit `k` read back from a waveform: HIGH then LOW is a 1, LOW then HIGH a 0, anything else no bit (rule R134). -/
def decodeBit (p : Params) (events : List (Nat × Bool)) (k : Nat) : Option Bool :=
  match levelAt events (p.cellUs * k), levelAt events (p.cellUs * (k + 1) - 1) with
  | true, false => some true
  | false, true => some false
  | _, _ => none

/-- The byte whose bit `ORDER[j]` is the `j`-th of eight bits (rule R134). -/
def byteOfBits (bits : List Bool) : Byte :=
  (List.range 8).foldl (fun b j => if bits.getD j false then b ||| BitVec.twoPow 8 (sendOrder j) else b) 0

/-- The buffer whose byte `i` is made of bits `8*i` to `8*i + 7` (rule R134). -/
def bufferOfBits (bits : List Bool) : Memory :=
  (List.range bufferSize).foldl (fun m i => Memory.write m i (byteOfBits (bits.drop (8 * i)))) []

/-- `decodeWave(W)` (rule R134); none if a cell is neither bit. -/
def decodeWave (p : Params) (events : List (Nat × Bool)) : Option Memory :=
  ((List.range frameBits).mapM (decodeBit p events)).map bufferOfBits

end Sys2Proof.Machine
end

