-- ==== Sys2Proof/Safety.lean ====
section
/-! DEFINITION. What counts as a safe state of the block: the terms in which claims are stated (spec 60_exceptions.md rule R143,
70_reset_and_hazards.md rule R186). -/

namespace Sys2Proof.Machine

/-- "A model must treat a state with `ERR = 1` as *faulted, never final*" (rule R143). -/
def State.faulted (s : State) : Prop := s.err = true

/-- A state a command sequence may end in: no error, and no frame in progress. -/
def State.final (s : State) : Prop := s.err = false ∧ s.busy = false

/-- The host does not assert `rst` in the coming steps. -/
def State.noReset (s : State) : Prop := HostAct.rst ∉ s.host

/-- The host does not assert `rst` in the next step. -/
def State.noResetNext (s : State) : Prop := ∀ rest, s.host ≠ .rst :: rest

/-- Whenever `BUSY = 0`, `TX = 0` (rule R186). -/
def State.idleLow (s : State) : Prop := s.busy = false → s.tx = false

/-- The error latch: `ERRCODE` and `ERRCW` are 0 while `ERR = 0` (rule R17), code 7 and, with `ERR = 1`, code 0 are never there (rule
R141), and `ERR = 1` implies `BUSY = 0` (rule R143). -/
def State.latchOk (s : State) : Prop :=
  (s.err = false → s.errcode = 0 ∧ s.errcw = 0) ∧
  (s.err = true → 1 ≤ s.errcode.toNat ∧ s.errcode.toNat ≤ 6 ∧ s.busy = false)

/-- Where a frame in progress is: the microseconds `r` left to `NEXT` agree with the sub-interval the encoder is in (rules R124 to R127,
R130), so no deadline is ever already past (rule R129). -/
def Frame.onSchedule {w : Nat} (p : Params) (m : Memory) (now : BitVec w) (f : Frame w) : Prop :=
  let r := (subT f.next now).toNat
  let b := bitk m f.txk.toNat
  (f.txk.toNat < frameBits ∧ f.tx = b ∧ p.cellUs - p.firstUs b < r ∧ r ≤ p.cellUs) ∨
  (f.txk.toNat < frameBits ∧ f.tx = (!b) ∧ 0 < r ∧ r ≤ p.cellUs - p.firstUs b) ∨
  (f.txk.toNat = frameBits ∧ bitk m 103 = false ∧ f.tx = false ∧ 0 < r ∧ r ≤ p.unitUs)

/-- A frame in progress is on schedule. -/
def State.frameOk (s : State) : Prop := s.busy = true → s.frame.onSchedule Config.params s.mem s.now

/-- The invariant of the block. -/
structure State.Inv (s : State) : Prop where
  memory : Memory.wf s.mem = true
  idleLow : s.idleLow
  latch : s.latchOk
  frame : s.frameOk

end Sys2Proof.Machine
end

