-- ==== Sys2Proof/Certificates/Slice0/Obligations.lean ====
section
/-! DEFINITION. The statements for the provers. Each docstring names the rules of spec/ it rests on. An error entry is written out field
by field (60_exceptions.md rule R142), with the code of rule R141 as a number; a next state written `{ s with ... }` says that
every field not named keeps its value. That a step in which no word is accepted and no reset happens is one microsecond, and that
accepting a word counts none, is the model's choice (assumption 3); the statements that count steps as microseconds say so. -/

open Sys2Proof Sys2Proof.Machine

/-! ### Encoding and decoding -/

/-- Rule R55: the encoding as arithmetic, and its examples, written out, both ways. -/
def Obligations.CommandWordsAreTheSpecsExamples : Prop :=
  (∀ i : Instr, (encode i).toNat = i.op.toNat * 4096 + i.fieldA.toNat * 256 + i.fieldImm8.toNat) ∧
  (decode 0x13AF = .ok (.ldb 3 0xAF) ∧ encode (.ldb 3 0xAF) = 0x13AF) ∧
  (decode 0x2B00 = .ok (.rdb 11 0) ∧ encode (.rdb 11 0) = 0x2B00) ∧
  (decode 0x335A = .ok (.ldr 3 0x5A) ∧ encode (.ldr 3 0x5A) = 0x335A) ∧
  (decode 0x4700 = .ok (.rdr 7 0) ∧ encode (.rdr 7 0) = 0x4700) ∧
  (decode 0x500F = .ok (.sum8 0 15) ∧ encode (.sum8 0 15) = 0x500F) ∧
  (decode 0x600F = .ok (.crc8 0 15) ∧ encode (.crc8 0 15) = 0x600F) ∧
  (decode 0x7000 = .ok (.bcde 0 0) ∧ encode (.bcde 0 0) = 0x7000) ∧
  (decode 0x8000 = .ok (.bcdd 0 0) ∧ encode (.bcdd 0 0) = 0x8000) ∧
  (decode 0x9000 = .ok (.build 0 0) ∧ encode (.build 0 0) = 0x9000) ∧
  (decode 0xA000 = .ok (.xmit 0 0) ∧ encode (.xmit 0 0) = 0xA000)

/-- Rules R47, R49, R55: every command, with every value of both fields, decodes from its word. -/
def Obligations.EveryCommandDecodesFromItsWord : Prop :=
  ∀ i : Instr, decode (encode i) = .ok i

/-- Rules R47, R49, R55: a word that decodes is the word of the command it decodes to, so no bit of it is dropped. -/
def Obligations.EveryDecodedWordIsItsCommandsWord : Prop :=
  ∀ (w : Word) (i : Instr), decode w = .ok i → encode i = w

/-- Rules R51, R141: a ready block answers a word whose `op` is 0x0 or 0xB to 0xF with `ErrIllegal`, whatever the other bits are, and a
command word that fails a check of rule R50 with another error, and changes nothing else; every word is a well-formed command
or raises an error. That `NOW` stands still in the accepting step is the model's choice (assumption 3). -/
def Obligations.WordsThatAreNoCommandRaiseAnError : Prop :=
  ∀ (s : State) (w : Word) (rest : List HostAct), s.busy = false → s.err = false →
    (s.host = .hold w :: rest ∨ s.host = .offer w :: rest) →
    (w.toNat / 4096 = 0 ∨ 11 ≤ w.toNat / 4096 →
      step s = .next { s with host := rest, err := true, errcode := 1, errcw := w }) ∧
    (1 ≤ w.toNat / 4096 ∧ w.toNat / 4096 ≤ 10 →
      ∃ i, decode w = .ok i ∧
        (i.wellFormed = false →
          ∃ c : BitVec 3, 2 ≤ c.toNat ∧ c.toNat ≤ 6 ∧
            step s = .next { s with host := rest, err := true, errcode := c, errcw := w }))

/-- Rules R50, R146: of several failed checks the first in the order `ErrReserved`, then `ErrIndex` or `ErrCount`, then `ErrValue` is
the one reported, before the command has changed anything (rule R142). -/
def Obligations.IllFormedCommandsReportTheFirstFailedCheck : Prop :=
  ∀ (i : Instr) (s : State),
    (i.illFormed = some .reserved →
      exec i s = .next { s with err := true, errcode := 2, errcw := encode i }) ∧
    (i.illFormed = some .index →
      exec i s = .next { s with err := true, errcode := 3, errcw := encode i }) ∧
    (i.illFormed = some .count →
      exec i s = .next { s with err := true, errcode := 4, errcw := encode i }) ∧
    (i.illFormed = some .value →
      exec i s = .next { s with err := true, errcode := 6, errcw := encode i })

/-- Rules R113, R140: no well-formed command but BCDD fails, whatever the buffer and the registers hold. -/
def Obligations.WellFormedCommandsRaiseNoError : Prop :=
  ∀ (i : Instr) (s : State), i.wellFormed = true → (∀ a imm8, i ≠ .bcdd a imm8) →
    ∃ t, exec i s = .next t ∧ t.err = s.err ∧ t.errcode = s.errcode ∧ t.errcw = s.errcw

/-! ### The command port, the order of steps, errors and reset -/

/-- Rules R45, R46: a word presented while `BUSY` and `ERR` are 0 is accepted in that step, and the step is the decoded command's effect
with the word consumed. So it is for a word placed with `withFetchWord`, which is the model's own way of presenting one (assumption 4);
and that accepting a word counts no microsecond, so that the step is the effect and nothing else, is the model's choice
(assumption 3). -/
def Obligations.StepRunsTheDecodedCommand : Prop :=
  (∀ (s : State) (w : Word) (rest : List HostAct) (i : Instr), s.busy = false → s.err = false →
    (s.host = .hold w :: rest ∨ s.host = .offer w :: rest) → decode w = .ok i →
    step s = exec i { s with host := rest }) ∧
  (∀ (s : State) (w : Nat) (i : Instr), s.busy = false → s.err = false → decodeTableWord 16 w = some i →
    step (s.withFetchWord 16 w) = exec i s)

/-- Rules R45, R187: a word presented while `BUSY` or `ERR` is 1 has no effect; held, it still waits; offered, it is withdrawn. -/
def Obligations.UnacceptedWordHasNoEffect : Prop :=
  ∀ (s : State) (w : Word) (rest : List HostAct), s.busy = true ∨ s.err = true →
    (s.host = .hold w :: rest →
      ∃ t, step s = .next t ∧ t.host = s.host ∧ step { s with host := [] } = .next { t with host := [] }) ∧
    (s.host = .offer w :: rest →
      ∃ t, step s = .next t ∧ t.host = rest ∧ step { s with host := [] } = .next { t with host := [] })

/-- Rules R135, R187: while a frame is in progress a step in which the host does not assert reset changes neither the buffer nor a
register of the block but the encoder's, and a microsecond passes (that a step is one is the model's choice, assumption 3). -/
def Obligations.FrameInProgressKeepsPayloadAndRegisters : Prop :=
  ∀ s : State, s.busy = true → s.noResetNext →
    ∃ t, step s = .next t ∧ t.now = addT s.now (micros Config.params.tw 1) ∧
      t = { s with
        busy := t.busy, tx := t.tx, txk := t.txk, next := t.next, now := t.now, host := t.host, draws := t.draws }

/-- Rule R143: after an error (`ERR = 1`, hence `BUSY = 0`) nothing is accepted and nothing changes but `NOW`, for any number of steps
without reset and whatever the host presents (that a step is one microsecond is the model's choice, assumption 3). -/
def Obligations.ErrorHaltsTheBlockUntilReset : Prop :=
  ∀ (s : State) (n : Nat), s.err = true → s.busy = false → s.noReset →
    ∃ t : State, Host.Core.run Sys2Proof.core n s = .next t ∧
      t = { s with now := addT s.now (micros Config.params.tw n), host := t.host }

/-- Rule R17: "no command clears it; only reset does", in every state whose next input is not `rst`; and the error's code and word
stay with it. -/
def Obligations.OnlyResetClearsAnError : Prop :=
  ∀ s : State, s.err = true → s.noResetNext →
    ∃ t, step s = .next t ∧ t.err = true ∧ t.errcode = s.errcode ∧ t.errcw = s.errcw

/-- Rules R51, R163: every step of every state, and every command in every state, answers a next state. -/
def Obligations.EveryStepAnswersANextState : Prop :=
  (∀ s : State, ∃ t, step s = .next t) ∧ (∀ (i : Instr) (s : State), ∃ t, exec i s = .next t)

/-- Rules R21, R150: a step in which the host does not assert reset counts one microsecond, or accepts a word and counts none (the latter
is the model's choice, assumption 3); no command writes `NOW`. -/
def Obligations.OnlyTimeMovesTheCounter : Prop :=
  (∀ s t : State, s.noResetNext → step s = .next t →
    t.now = addT s.now (micros Config.params.tw 1) ∨
      (t.now = s.now ∧ s.busy = false ∧ s.err = false ∧
        ∃ w rest, (s.host = .hold w :: rest ∨ s.host = .offer w :: rest) ∧ t.host = rest)) ∧
  (∀ (i : Instr) (s t : State), exec i s = .next t → t.now = s.now)

/-- Rule R142, with the codes of rule R141: error entry writes the latch and nothing else. -/
def Obligations.ErrorEntryWritesOnlyTheLatch : Prop :=
  ∀ (e : ErrKind) (cmd : Word) (s : State),
    ∃ c : BitVec 3, raise e cmd s = { s with err := true, errcode := c, errcw := cmd } ∧
      (e = .illegal → c = 1) ∧ (e = .reserved → c = 2) ∧ (e = .index → c = 3) ∧
      (e = .count → c = 4) ∧ (e = .bcd → c = 5) ∧ (e = .value → c = 6)

/-- Rule R22: the reset values the spec states (and only those), and that the port is ready (rule R172). -/
def Obligations.ResetHasTheStatedValues : Prop :=
  State.reset.typeCode = 0xF824 ∧ State.reset.batt = 0 ∧ State.reset.busy = false ∧ State.reset.err = false ∧
  State.reset.errcode = 0 ∧ State.reset.errcw = 0 ∧ State.reset.tx = false ∧ State.reset.cmdReady = true

/-- Rules R170, R171: `rst` in any state, a frame in progress and an error among them, leaves the stated values and an idle, ready
block; the buffer is some 13 bytes. -/
def Obligations.ResetPinOverridesEverything : Prop :=
  ∀ (s : State) (rest : List HostAct), s.host = .rst :: rest →
    ∃ t, step s = .next t ∧ t.host = rest ∧ t.typeCode = 0xF824 ∧ t.batt = 0 ∧ t.busy = false ∧ t.err = false ∧
      t.errcode = 0 ∧ t.errcw = 0 ∧ t.tx = false ∧ t.cmdReady = true ∧ Memory.wf t.mem = true

/-- Rules R39, R45, R191: well-formed commands other than BCDD (which may raise `ErrBcd`) and XMIT (which keeps the block busy),
presented one after another to a ready block, are each accepted in one step, and the block is ready and without error at the
end. That accepting a word counts no microsecond is the model's choice (assumption 3). -/
def Obligations.PresentedCommandsRunToTheEnd : Prop :=
  ∀ (is : List Instr) (s : State), s.busy = false → s.err = false →
    (∀ i ∈ is, i.wellFormed = true ∧ (∀ a imm8, i ≠ .bcdd a imm8) ∧ (∀ a imm8, i ≠ .xmit a imm8)) →
    ∃ t : State, Host.Core.run Sys2Proof.core is.length { s with host := present is } = .next t ∧
      t.host = [] ∧ t.busy = false ∧ t.err = false

/-! ### Invariants -/

/-- The block's invariant (`State.Inv`: canonical buffer, idle line low, error latch legal, frame on schedule) holds at reset. -/
def Obligations.ResetMeetsTheBlockInvariant : Prop := State.reset.Inv

/-- Every step from a state that meets the block's invariant answers a state that meets it (rules R17, R124 to R130, R141, R143, R186). -/
def Obligations.EveryStepKeepsTheBlockInvariant : Prop :=
  ∀ s t : State, s.Inv → step s = .next t → t.Inv

/-- Rule R186: "Whenever `BUSY = 0`, `TX = 0`": at reset, and kept by every step by itself; no command but XMIT writes `TX`. -/
def Obligations.IdleLineIsLow : Prop :=
  (State.reset.busy = false → State.reset.tx = false) ∧
  (∀ s t : State, (s.busy = false → s.tx = false) → step s = .next t → t.busy = false → t.tx = false) ∧
  (∀ (i : Instr) (s t : State), i.op ≠ 10 → exec i s = .next t → t.tx = s.tx)

/-- Rule R10, column "set by", for the elements a command may not write: per element, the commands that may, and nothing else. -/
def Obligations.ElementsAreSetOnlyByTheirCommands : Prop :=
  ∀ (i : Instr) (s t : State), exec i s = .next t →
    (i.op ≠ 1 → i.op ≠ 7 → i.op ≠ 9 → t.mem = s.mem) ∧
    (i.op ≠ 3 → t.typeCode = s.typeCode ∧ t.chan = s.chan ∧ t.roll = s.roll ∧ t.batt = s.batt) ∧
    (i.op ≠ 3 → i.op ≠ 8 → t.temp = s.temp ∧ t.hum = s.hum) ∧
    (i.op ≠ 2 → i.op ≠ 4 → i.op ≠ 5 → i.op ≠ 6 → t.res = s.res) ∧
    (i.op ≠ 10 → t.busy = s.busy ∧ t.next = s.next ∧ t.txk = s.txk ∧ t.tx = s.tx) ∧
    (i.op ≠ 5 → i.op ≠ 9 → t.sumr = s.sumr) ∧
    (i.op ≠ 6 → i.op ≠ 9 → t.crcr = s.crcr) ∧
    t.host = s.host

/-- Rules R8, R18 (and R16, R19 for `TXK` and `NEXT`): no hidden state flows from one command to the next: what a command does to
everything else does not depend on the working registers `SUMR` and `CRCR`, nor on `NEXT` and `TXK`. -/
def Obligations.WorkingRegistersCarryNothingOver : Prop :=
  ∀ (i : Instr) (s : State) (x y : Byte) (n : Time) (k : BitVec 7),
    ∃ t u, exec i s = .next t ∧ exec i { s with sumr := x, crcr := y, next := n, txk := k } = .next u ∧
      { u with sumr := t.sumr, crcr := t.crcr, next := t.next, txk := t.txk } = t

/-! ### Access commands -/

/-- Rule R60: LDB's word; it stores its byte at its index and changes nothing else; an index above 12 is `ErrIndex`. -/
def Obligations.LdbStoresOneByte : Prop :=
  ∀ (a : Nibble) (imm8 : Byte) (s : State), Memory.wf s.mem = true →
    (encode (.ldb a imm8)).toNat = 0x1000 + a.toNat * 256 + imm8.toNat ∧
    (a.toNat ≤ 12 →
      ∃ t, exec (.ldb a imm8) s = .next t ∧ t = { s with mem := t.mem } ∧
        Memory.read t.mem a.toNat = imm8 ∧ ∀ j, j ≠ a.toNat → Memory.read t.mem j = Memory.read s.mem j) ∧
    (12 < a.toNat →
      exec (.ldb a imm8) s = .next { s with err := true, errcode := 3, errcw := encode (.ldb a imm8) })

/-- Rule R61: RDB's word; it puts the byte at its index into `RES` and changes nothing else; `ErrReserved`, then `ErrIndex`. -/
def Obligations.RdbReadsOneByte : Prop :=
  ∀ (a : Nibble) (imm8 : Byte) (s : State),
    (encode (.rdb a 0)).toNat = 0x2000 + a.toNat * 256 ∧
    (a.toNat ≤ 12 → exec (.rdb a 0) s = .next { s with res := Memory.read s.mem a.toNat }) ∧
    (imm8 ≠ 0 → exec (.rdb a imm8) s = .next { s with err := true, errcode := 2, errcw := encode (.rdb a imm8) }) ∧
    (12 < a.toNat → exec (.rdb a 0) s = .next { s with err := true, errcode := 3, errcw := encode (.rdb a 0) })

/-- Rules R62, R64: LDR's word; LDR, entry by entry; one half of `TYPE` or `TEMP` leaves the other half; `BATT` refuses a byte above 15. -/
def Obligations.LdrWritesOneRegister : Prop :=
  ∀ (v : Byte) (s : State),
    (∀ a : Nibble, (encode (.ldr a v)).toNat = 0x3000 + a.toNat * 256 + v.toNat) ∧
    exec (.ldr 0 v) s = .next { s with typeCode := BitVec.ofNat 16 (v.toNat * 256 + s.typeCode.toNat % 256) } ∧
    exec (.ldr 1 v) s = .next { s with typeCode := BitVec.ofNat 16 (s.typeCode.toNat / 256 * 256 + v.toNat) } ∧
    exec (.ldr 2 v) s = .next { s with chan := v } ∧
    exec (.ldr 3 v) s = .next { s with roll := v } ∧
    (v.toNat ≤ 15 → exec (.ldr 4 v) s = .next { s with batt := BitVec.ofNat 4 v.toNat }) ∧
    (15 < v.toNat → exec (.ldr 4 v) s = .next { s with err := true, errcode := 6, errcw := encode (.ldr 4 v) }) ∧
    exec (.ldr 5 v) s = .next { s with temp := BitVec.ofNat 16 (s.temp.toNat / 256 * 256 + v.toNat) } ∧
    exec (.ldr 6 v) s = .next { s with temp := BitVec.ofNat 16 (v.toNat * 256 + s.temp.toNat % 256) } ∧
    exec (.ldr 7 v) s = .next { s with hum := v } ∧
    (∀ a : Nibble, 7 < a.toNat →
      exec (.ldr a v) s = .next { s with err := true, errcode := 3, errcw := encode (.ldr a v) })

/-- Rule R63: RDR's word; RDR, entry by entry; `BATT` reads with bits 7:4 zero; `ErrReserved`, then `ErrIndex`. -/
def Obligations.RdrReadsOneRegister : Prop :=
  ∀ s : State,
    (∀ a : Nibble, (encode (.rdr a 0)).toNat = 0x4000 + a.toNat * 256) ∧
    exec (.rdr 0 0) s = .next { s with res := BitVec.ofNat 8 (s.typeCode.toNat / 256) } ∧
    exec (.rdr 1 0) s = .next { s with res := BitVec.ofNat 8 (s.typeCode.toNat % 256) } ∧
    exec (.rdr 2 0) s = .next { s with res := s.chan } ∧
    exec (.rdr 3 0) s = .next { s with res := s.roll } ∧
    exec (.rdr 4 0) s = .next { s with res := BitVec.ofNat 8 s.batt.toNat } ∧
    exec (.rdr 5 0) s = .next { s with res := BitVec.ofNat 8 (s.temp.toNat % 256) } ∧
    exec (.rdr 6 0) s = .next { s with res := BitVec.ofNat 8 (s.temp.toNat / 256) } ∧
    exec (.rdr 7 0) s = .next { s with res := s.hum } ∧
    (∀ (a : Nibble) (imm8 : Byte), imm8 ≠ 0 →
      exec (.rdr a imm8) s = .next { s with err := true, errcode := 2, errcw := encode (.rdr a imm8) }) ∧
    (∀ a : Nibble, 7 < a.toNat →
      exec (.rdr a 0) s = .next { s with err := true, errcode := 3, errcw := encode (.rdr a 0) })

/-- Rules R12, R62, R63: the eight entries are separate: what LDR wrote RDR reads, and every other entry reads as before. -/
def Obligations.RegisterReadsBackWhatWasWritten : Prop :=
  ∀ (a : Nibble) (v : Byte) (s : State), a.toNat ≤ 7 → (a.toNat = 4 → v.toNat ≤ 15) →
    ∃ t, exec (.ldr a v) s = .next t ∧
      (∃ u, exec (.rdr a 0) t = .next u ∧ u.res = v) ∧
      ∀ b : Nibble, b.toNat ≤ 7 → b ≠ a →
        ∃ u u', exec (.rdr b 0) t = .next u ∧ exec (.rdr b 0) s = .next u' ∧ u.res = u'.res

/-- Rules R48, R54: `LDTEMP` and `LDTYPE`, presented to a ready block, load the whole 16-bit value and change nothing else. That `NOW`
too stands still over the two accepted commands is the model's choice (assumption 3). -/
def Obligations.SixteenBitLoadsTakeTwoCommands : Prop :=
  ∀ (v : Word) (s : State), s.busy = false → s.err = false →
    Host.Core.run Sys2Proof.core 2 { s with host := present (Pseudo.ldtemp v).expand }
      = .next { s with host := [], temp := v } ∧
    Host.Core.run Sys2Proof.core 2 { s with host := present (Pseudo.ldtype v).expand }
      = .next { s with host := [], typeCode := v }

/-! ### Checksums -/

/-- Rule R70: SUM8 writes `RES` and its scratch register, and nothing else; `ErrReserved`, then `ErrCount` above 18. -/
def Obligations.Sum8WritesTheChecksum : Prop :=
  ∀ (a : Nibble) (count : Byte) (s : State),
    (count.toNat ≤ 18 →
      ∃ t, exec (.sum8 0 count) s = .next t ∧
        t = { s with res := simpleChecksum s.mem count.toNat, sumr := t.sumr, draws := t.draws }) ∧
    (a ≠ 0 → exec (.sum8 a count) s = .next { s with err := true, errcode := 2, errcw := encode (.sum8 a count) }) ∧
    (18 < count.toNat →
      exec (.sum8 0 count) s = .next { s with err := true, errcode := 4, errcw := encode (.sum8 0 count) })

/-- Rules R38, R70 to R74: the checksum is the swapped sum, modulo 256, of the nibbles of its window: nibbles 7 to
`7 + 2*(count div 2)` and, for odd `count`, nibble `8 + 2*(count div 2)`; for `count <= 16` that sum is at most 255. -/
def Obligations.ChecksumIsTheSwappedSumOfItsWindow : Prop :=
  ∀ (m : Memory) (count : Nat), count ≤ 18 →
    let window := (List.range (2 * (count / 2) + 1)).map (fun j => 7 + j)
      ++ (if count % 2 = 1 then [8 + 2 * (count / 2)] else [])
    let total := (window.map (fun n => (nib m n).toNat)).sum
    simpleChecksum m count = swap4 (BitVec.ofNat 8 total) ∧ (count ≤ 16 → total ≤ 255) ∧ ∀ n ∈ window, n ≤ 25

/-- Rules R8, R38, R76, R88: each checksum is a function of its count and of the nibbles of its window: for SUM8 nibbles 7 to
`7 + 2*(count div 2)` and, for odd `count`, nibble `8 + 2*(count div 2)`; for CRC8 nibbles 7 to `count + 6`. -/
def Obligations.ChecksumsReadOnlyTheirWindows : Prop :=
  (∀ (m m' : Memory) (count : Nat), count ≤ 18 →
    (∀ n, 7 ≤ n ∧ n ≤ 7 + 2 * (count / 2) ∨ count % 2 = 1 ∧ n = 8 + 2 * (count / 2) → nib m n = nib m' n) →
    simpleChecksum m count = simpleChecksum m' count) ∧
  (∀ (m m' : Memory) (count : Nat), count ≤ 19 →
    (∀ n, 7 ≤ n → n ≤ count + 6 → nib m n = nib m' n) → crc8 m count = crc8 m' count)

/-- Rule R80: CRC8 writes `RES` and its scratch register, and nothing else; `ErrReserved`, then `ErrCount` above 19. -/
def Obligations.Crc8WritesTheChecksum : Prop :=
  ∀ (a : Nibble) (count : Byte) (s : State),
    (count.toNat ≤ 19 →
      ∃ t, exec (.crc8 0 count) s = .next t ∧
        t = { s with res := crc8 s.mem count.toNat, crcr := t.crcr, draws := t.draws }) ∧
    (a ≠ 0 → exec (.crc8 a count) s = .next { s with err := true, errcode := 2, errcw := encode (.crc8 a count) }) ∧
    (19 < count.toNat →
      exec (.crc8 0 count) s = .next { s with err := true, errcode := 4, errcw := encode (.crc8 0 count) })

/-- Rules R82, R84: a round is `2*c mod 256`, XORed with 7 if `c >= 128`; and the source's loop, nibbles entered at bits 3:0 and a
trailing flush, equals the conventional nibble-wise CRC made of four such rounds a nibble, the nibble entered at bits 7:4 and no
flush: in the model's rounds, and with nothing but the numbers of rule R82. -/
def Obligations.CrcLoopEqualsTheConventionalCrc : Prop :=
  let round : Nat → Nat := fun c => if 128 ≤ c then (2 * c % 256) ^^^ 7 else 2 * c % 256
  (∀ c : Byte, (crcRound c).toNat = round c.toNat) ∧
  ∀ (m : Memory) (count : Nat),
    crc8 m count
      = swap4 ((List.range count).foldl (fun c j => crcRounds4 (c ^^^ (zext8 (nib m (7 + j)) <<< 4))) 0) ∧
    crc8 m count
      = swap4 (BitVec.ofNat 8 ((List.range count).foldl
          (fun c j => round (round (round (round (c ^^^ ((nib m (7 + j)).toNat * 16)))))) 0))

/-- Rules R80, R84, the first form: `CRCR` before the swap is `M(x) * x^8 mod (x^8 + x^2 + x + 1)` over GF(2), the coefficients of `M`
being the bits of the window's nibbles, the first nibble's bit 3 at the highest power and the last one's bit 0 at power 0; the
checksum is that register with its nibbles swapped (rule R85). -/
def Obligations.CrcIsThePolynomialRemainder : Prop :=
  ∀ (m : Memory) (count : Nat),
    let bit (b : Bool) (e : Nat) : Polynomial (ZMod 2) := if b = true then Polynomial.X ^ e else 0
    let window := ((List.range count).map (fun j =>
      ((List.range 4).map (fun i => bit ((nib m (7 + j)).getLsbD i) (4 * (count - 1 - j) + i))).sum)).sum
    ((List.range 8).map (fun i => bit ((swap4 (crc8 m count)).getLsbD i) i)).sum
      = (window * Polynomial.X ^ 8) %ₘ (Polynomial.X ^ 8 + Polynomial.X ^ 2 + Polynomial.X + 1)

/-- Rule R86: a window of zero nibbles, the empty one among them, gives 0x00. -/
def Obligations.ZeroWindowHasZeroCrc : Prop :=
  ∀ (m : Memory) (count : Nat), (∀ n, 7 ≤ n → n ≤ count + 6 → nib m n = 0) → crc8 m count = 0

/-- A consequence of rules R80 and R82: changing exactly one nibble of the window always changes the CRC. -/
def Obligations.OneChangedNibbleChangesTheCrc : Prop :=
  ∀ (m m' : Memory) (count k : Nat), 7 ≤ k → k ≤ count + 6 → nib m k ≠ nib m' k →
    (∀ n, 7 ≤ n → n ≤ count + 6 → n ≠ k → nib m n = nib m' n) → crc8 m count ≠ crc8 m' count

/-! ### BCD -/

/-- Rules R90 to R93: BCDE's word; it writes the seven data nibbles, keeps the battery nibble and every other byte, and nothing else changes. -/
def Obligations.BcdeWritesTheDataNibbles : Prop :=
  ∀ (a : Nibble) (imm8 : Byte) (s : State), Memory.wf s.mem = true →
    encode (.bcde 0 0) = 0x7000 ∧
    (∃ t, exec (.bcde 0 0) s = .next t ∧ t = { s with mem := t.mem } ∧
      (Memory.read t.mem 7).toNat = (Memory.read s.mem 7).toNat / 16 * 16 + s.temp.toInt.natAbs % 10 ∧
      (Memory.read t.mem 8).toNat = s.temp.toInt.natAbs / 10 % 10 * 16 + s.temp.toInt.natAbs / 100 % 10 ∧
      (Memory.read t.mem 9).toNat = (if s.temp.toInt < 0 then 0x80 else 0) + s.hum.toNat % 10 ∧
      (Memory.read t.mem 10).toNat = s.hum.toNat / 10 % 10 * 16 ∧
      ∀ j, j < 7 ∨ 10 < j → Memory.read t.mem j = Memory.read s.mem j) ∧
    (a ≠ 0 ∨ imm8 ≠ 0 →
      exec (.bcde a imm8) s = .next { s with err := true, errcode := 2, errcw := encode (.bcde a imm8) })

/-- Rule R95: BCDD's word; BCDD, with the digits as numbers; a digit above 9 is `ErrBcd`, and nothing else changes. -/
def Obligations.BcddReadsTheDataNibbles : Prop :=
  ∀ (a : Nibble) (imm8 : Byte) (s : State),
    let b := fun j => (Memory.read s.mem j).toNat
    let digits := [b 7 % 16, b 8 / 16, b 8 % 16, b 9 % 16, b 10 / 16]
    let m := b 7 % 16 + 10 * (b 8 / 16) + 100 * (b 8 % 16)
    encode (.bcdd 0 0) = 0x8000 ∧
    ((∀ d ∈ digits, d ≤ 9) →
      exec (.bcdd 0 0) s = .next { s with
        temp := if 128 ≤ b 9 then BitVec.ofInt 16 (-(m : Int)) else BitVec.ofInt 16 (m : Int)
        hum := BitVec.ofNat 8 (b 9 % 16 + 10 * (b 10 / 16)) }) ∧
    ((∃ d ∈ digits, 9 < d) →
      exec (.bcdd 0 0) s = .next { s with err := true, errcode := 5, errcw := encode (.bcdd 0 0) }) ∧
    (a ≠ 0 ∨ imm8 ≠ 0 →
      exec (.bcdd a imm8) s = .next { s with err := true, errcode := 2, errcw := encode (.bcdd a imm8) })

/-- Rule R97: decoding what was encoded gives `(sign(T) * (|T| mod 1000), H mod 100)`, hence the reading itself for -999 to 999 and
0 to 99. -/
def Obligations.ReadingSurvivesEncodingAndDecoding : Prop :=
  ∀ (temp : Word) (hum : Byte),
    bcdDecode (bcdEncode temp hum)
      = some (BitVec.ofInt 16 (temp.toInt.sign * ((temp.toInt.natAbs % 1000 : Nat) : Int)),
          BitVec.ofNat 8 (hum.toNat % 100)) ∧
    (-999 ≤ temp.toInt ∧ temp.toInt ≤ 999 ∧ hum.toNat ≤ 99 → bcdDecode (bcdEncode temp hum) = some (temp, hum))

/-- Rule R98: decimal digits survive decoding and encoding; the sign nibble comes back as 0x8 exactly when its bit 3 was set and the
magnitude is not zero. -/
def Obligations.DecodedDigitsEncodeBack : Prop :=
  ∀ n : BcdNibbles, n.d0.toNat ≤ 9 → n.d1.toNat ≤ 9 → n.d2.toNat ≤ 9 → n.h0.toNat ≤ 9 → n.h1.toNat ≤ 9 →
    ∃ temp hum, bcdDecode n = some (temp, hum) ∧
      bcdEncode temp hum = { n with
        s := if 8 ≤ n.s.toNat ∧ n.d0.toNat + 10 * n.d1.toNat + 100 * n.d2.toNat ≠ 0 then 0x8 else 0x0 }

/-- Rules R90, R95, R97, on commands: BCDE, then a changed reading, then BCDD: the reading is back, and the buffer is as BCDE left it. -/
def Obligations.BcddAfterBcdeRestoresTheReading : Prop :=
  ∀ (s : State) (temp : Word) (hum : Byte), Memory.wf s.mem = true →
    -999 ≤ s.temp.toInt → s.temp.toInt ≤ 999 → s.hum.toNat ≤ 99 →
    ∃ t, exec (.bcde 0 0) s = .next t ∧ exec (.bcdd 0 0) { t with temp := temp, hum := hum } = .next t

/-! ### BUILD -/

/-- Rules R31, R100 to R110: BUILD completes in every state, writes every byte of the buffer as the layout says, and changes nothing
else but the scratch registers. -/
def Obligations.BuildAssemblesTheLayout : Prop :=
  ∀ (a : Nibble) (imm8 : Byte) (s : State),
    (∃ t, exec (.build 0 0) s = .next t ∧
      t = { s with mem := t.mem, sumr := t.sumr, crcr := t.crcr, draws := t.draws } ∧ Memory.wf t.mem = true ∧
      Memory.read t.mem 0 = 0xFF ∧ Memory.read t.mem 1 = 0xFF ∧ Memory.read t.mem 2 = 0xFF ∧
      (Memory.read t.mem 3).toNat = 0xA0 + s.typeCode.toNat / 4096 ∧
      (Memory.read t.mem 4).toNat = s.typeCode.toNat / 16 % 256 ∧
      (Memory.read t.mem 5).toNat = s.typeCode.toNat % 16 * 16 + min s.chan.toNat 15 ∧
      Memory.read t.mem 6 = s.roll ∧
      (Memory.read t.mem 7).toNat = s.batt.toNat * 16 + s.temp.toInt.natAbs % 10 ∧
      (Memory.read t.mem 8).toNat = s.temp.toInt.natAbs / 10 % 10 * 16 + s.temp.toInt.natAbs / 100 % 10 ∧
      (Memory.read t.mem 9).toNat = (if s.temp.toInt < 0 then 0x80 else 0) + s.hum.toNat % 10 ∧
      (Memory.read t.mem 10).toNat = s.hum.toNat / 10 % 10 * 16 ∧
      Memory.read t.mem 11
        = swap4 (BitVec.ofNat 8 (((List.range 15).map (fun j => (nib t.mem (7 + j)).toNat)).sum % 256)) ∧
      Memory.read t.mem 12 = crc8 t.mem 15) ∧
    (a ≠ 0 ∨ imm8 ≠ 0 →
      exec (.build a imm8) s = .next { s with err := true, errcode := 2, errcw := encode (.build a imm8) })

/-- Rule R111: the payload depends on the six register values alone. -/
def Obligations.EqualReadingsBuildEqualPayloads : Prop :=
  ∀ s s' : State, s.typeCode = s'.typeCode → s.chan = s'.chan → s.roll = s'.roll → s.batt = s'.batt →
    s.temp = s'.temp → s.hum = s'.hum →
    ∃ t t', exec (.build 0 0) s = .next t ∧ exec (.build 0 0) s' = .next t' ∧ t.mem = t'.mem

/-- Rules R86, R190: on every payload BUILD produces, `CRC8 15` returns `B[12]`, and `SUM8 14` returns `B[11]` whatever `B[11]` has been
overwritten with since. -/
def Obligations.FinishedPayloadsCheck : Prop :=
  ∀ (s : State) (b : Byte),
    ∃ t, exec (.build 0 0) s = .next t ∧
      (∃ u, exec (.crc8 0 15) t = .next u ∧ u.res = Memory.read t.mem 12) ∧
      (∃ u, exec (.sum8 0 14) { t with mem := Memory.write t.mem 11 b } = .next u ∧ u.res = Memory.read t.mem 11)

/-! ### XMIT -/

/-- Rules R120, R123: XMIT's accepting step: busy, cell 0 started at `NOW` with the first bit's level driven, its deadline one bit period
on, and nothing else changed. -/
def Obligations.XmitStartsTheFrame : Prop :=
  ∀ (a : Nibble) (imm8 : Byte) (s : State),
    exec (.xmit 0 0) s = .next { s with
      busy := true
      tx := (Memory.read s.mem 0).getLsbD 4
      txk := 0
      next := addT s.now (micros Config.params.tw (2 * Config.params.unitUs)) } ∧
    (a ≠ 0 ∨ imm8 ≠ 0 →
      exec (.xmit a imm8) s = .next { s with err := true, errcode := 2, errcw := encode (.xmit a imm8) })

/-- Rules R120, R131 to R133: from the accepting step on, with no reset, the line follows `Wave(B)` microsecond by microsecond, `BUSY`
is 1 for exactly `E` microseconds, then the line is LOW and the block idle, and nothing but the encoder's registers and `NOW`
has changed. That `n` steps are `n` microseconds is the model's choice (assumption 3). -/
def Obligations.XmitTransmitsTheWaveform : Prop :=
  ∀ s : State, s.noReset →
    ∃ s0, exec (.xmit 0 0) s = .next s0 ∧
      ∀ n, n ≤ frameEnd Config.params s.mem →
        ∃ t : State, Host.Core.run Sys2Proof.core n s0 = .next t ∧
          t.tx = levelAt (wave Config.params s.mem) n ∧
          t.busy = decide (n < frameEnd Config.params s.mem) ∧
          t.now = addT s.now (micros Config.params.tw n) ∧
          t = { s with
            busy := t.busy, tx := t.tx, txk := t.txk, next := t.next, now := t.now, host := t.host, draws := t.draws }

/-- Rules R16, R125: in cell `k` of a frame, `TXK = k` and `NEXT` is `N0 + 2*UNIT_US*(k+1)` exactly: deadlines are never re-based.
That `n` steps are `n` microseconds is the model's choice (assumption 3). -/
def Obligations.DeadlinesAreNeverRebased : Prop :=
  ∀ (s : State) (n : Nat), s.noReset → n < 208 * Config.params.unitUs →
    ∃ s0 t, exec (.xmit 0 0) s = .next s0 ∧ Host.Core.run Sys2Proof.core n s0 = .next t ∧
      t.txk.toNat = n / (2 * Config.params.unitUs) ∧
      t.next = addT s.now
        (micros Config.params.tw (2 * Config.params.unitUs * (n / (2 * Config.params.unitUs) + 1)))

/-- Rules R34, R134: bit `k` of a frame is bit `ORDER[k mod 8]` of byte `k div 8`, which is bit `k mod 4` of nibble `k div 4`; and
reading the transitions of a frame's waveform back gives the payload, for every payload and every legal parameter set. -/
def Obligations.DecodedWaveformIsThePayload : Prop :=
  ∀ (p : Params) (m : Memory),
    (∀ k, k < 104 →
      bitk m k = (Memory.read m (k / 8)).getLsbD ([4, 5, 6, 7, 0, 1, 2, 3].getD (k % 8) 0) ∧
      bitk m k = (nib m (k / 4)).getLsbD (k % 4)) ∧
    (Memory.wf m = true → decodeWave p (wave p m) = some m)

/-- Rule R129: after every step the encoder waits for a deadline that is not yet reached: a completed wait is never left waiting, in
any state. -/
def Obligations.EncoderNeverLeavesACompletedWait : Prop :=
  ∀ s t : State, step s = .next t → t.busy = true →
    reached t.now (t.frame.deadline Config.params t.mem) = false

/-- Rules R45, R187: a command presented during a frame waits at the port and is accepted in the step after the one that ends the frame.
That the frame takes `E` steps, and that accepting XMIT counts no microsecond, is the model's choice (assumption 3). -/
def Obligations.WaitingWordIsAcceptedWhenTheFrameEnds : Prop :=
  ∀ (s : State) (i : Instr) (rest : List HostAct), s.busy = false → s.err = false →
    s.host = .hold (encode (.xmit 0 0)) :: .hold (encode i) :: rest → HostAct.rst ∉ rest →
    ∃ t : State, Host.Core.run Sys2Proof.core (1 + frameEnd Config.params s.mem) s = .next t ∧
      t.mem = s.mem ∧ t.busy = false ∧ t.host = .hold (encode i) :: rest ∧
      step t = exec i { t with host := rest }

/-! ### The timer -/

/-- Rules R151, R152: timer arithmetic modulo `2^w`; `elapsed` is the distance, whether or not the counter wrapped; `reached` compares the
difference with half the range, and at distances below that it is exact on both sides of the deadline, the residual wait being
the distance or 0. -/
def Obligations.DeadlineTestIsExactWithinHalfTheRange : Prop :=
  ∀ (w : Nat) (t d : BitVec w),
    (addT t d).toNat = (t.toNat + d.toNat) % 2 ^ w ∧
    ((subT t d).toNat : Int) = ((t.toNat : Int) - (d.toNat : Int)) % (2 ^ w : Int) ∧
    elapsed t (addT t d) = d ∧
    (reached t d = true ↔ (subT t d).toNat < 2 ^ (w - 1)) ∧
    residualWait t d = (if reached t d = true then 0 else subT d t) ∧
    (d.toNat < 2 ^ (w - 1) →
      reached (addT t d) t = true ∧ residualWait (addT t d) t = 0 ∧
      (d ≠ 0 → reached t (addT t d) = false ∧ residualWait t (addT t d) = d))
end

