-- ==== Sys2Proof/Laws/Word.lean ====
section
/-! SUPPORT. Nibbles, halves and command words as numbers: the one place where their bits are taken apart. -/

namespace Sys2Proof

theorem nibble_ext {x y : Nibble} (h : x.toNat = y.toNat) : x = y := BitVec.eq_of_toNat_eq h

theorem byte_ext {x y : Byte} (h : x.toNat = y.toNat) : x = y := BitVec.eq_of_toNat_eq h

/-- Rule R55 as arithmetic. -/
theorem encode_toNat (i : Instr) :
    (encode i).toNat = 4096 * i.op.toNat + 256 * i.fieldA.toNat + i.fieldImm8.toNat := by
  have h1 := i.op.isLt
  have h2 := i.fieldA.isLt
  have h3 := i.fieldImm8.isLt
  have inner : (i.op.setWidth 16 <<< 12 ||| i.fieldA.setWidth 16 <<< 8 : Word)
      = i.op.setWidth 16 <<< 12 + i.fieldA.setWidth 16 <<< 8 := by
    rw [BitVec.add_eq_or_of_and_eq_zero]
    ext j hj; simp; grind
  have outer : encode i = i.op.setWidth 16 <<< 12 + i.fieldA.setWidth 16 <<< 8 + i.fieldImm8.setWidth 16 := by
    unfold encode
    rw [← inner, BitVec.add_eq_or_of_and_eq_zero]
    ext j hj; simp; grind
  rw [outer]
  simp [BitVec.toNat_add, BitVec.toNat_shiftLeft, Nat.shiftLeft_eq]; omega

theorem wordOp_toNat (w : Word) : (wordOp w).toNat = w.toNat / 4096 := by
  have := w.isLt
  simp [wordOp, BitVec.extractLsb'_toNat, Nat.shiftRight_eq_div_pow]; omega

theorem wordA_toNat (w : Word) : (wordA w).toNat = w.toNat / 256 % 16 := by
  simp [wordA, BitVec.extractLsb'_toNat, Nat.shiftRight_eq_div_pow]

theorem wordImm8_toNat (w : Word) : (wordImm8 w).toNat = w.toNat % 256 := by
  simp [wordImm8, BitVec.extractLsb'_toNat]

@[simp] theorem wordOp_encode (i : Instr) : wordOp (encode i) = i.op := by
  apply nibble_ext; rw [wordOp_toNat, encode_toNat]
  have := i.fieldA.isLt; have := i.fieldImm8.isLt; omega

@[simp] theorem wordA_encode (i : Instr) : wordA (encode i) = i.fieldA := by
  apply nibble_ext; rw [wordA_toNat, encode_toNat]
  have := i.fieldA.isLt; have := i.fieldImm8.isLt; omega

@[simp] theorem wordImm8_encode (i : Instr) : wordImm8 (encode i) = i.fieldImm8 := by
  apply byte_ext; rw [wordImm8_toNat, encode_toNat]
  have := i.fieldImm8.isLt; omega

namespace Machine

@[simp] theorem hi4_toNat (v : Byte) : (hi4 v).toNat = v.toNat / 16 := by
  have := v.isLt
  simp [hi4, BitVec.extractLsb'_toNat, Nat.shiftRight_eq_div_pow]; omega

@[simp] theorem lo4_toNat (v : Byte) : (lo4 v).toNat = v.toNat % 16 := by
  simp [lo4, BitVec.extractLsb'_toNat]

@[simp] theorem zext8_toNat (n : Nibble) : (zext8 n).toNat = n.toNat := by
  have := n.isLt
  simp [zext8]; omega

@[simp] theorem joinNibbles_toNat (h l : Nibble) : (joinNibbles h l).toNat = 16 * h.toNat + l.toNat := by
  have hl := l.isLt
  refine (BitVec.toNat_append h l).trans ?_
  rw [← Nat.shiftLeft_add_eq_or_of_lt hl, Nat.shiftLeft_eq]; omega

@[simp] theorem hi4_joinNibbles (h l : Nibble) : hi4 (joinNibbles h l) = h := by
  have := l.isLt
  apply nibble_ext; simp; omega

@[simp] theorem lo4_joinNibbles (h l : Nibble) : lo4 (joinNibbles h l) = l := by
  have := l.isLt
  apply nibble_ext; simp; omega

@[simp] theorem joinNibbles_halves (v : Byte) : joinNibbles (hi4 v) (lo4 v) = v := by
  apply byte_ext; simp; omega

@[simp] theorem swap4_toNat (v : Byte) : (swap4 v).toNat = 16 * (v.toNat % 16) + v.toNat / 16 := by
  simp [swap4]

/-- `swap4(swap4(v)) = v` (rule R160). -/
@[simp] theorem swap4_swap4 (v : Byte) : swap4 (swap4 v) = v := by simp [swap4]

theorem setHighByte_toNat (v : Word) (b : Byte) : (setHighByte v b).toNat = 256 * b.toNat + v.toNat % 256 := by
  have hl := (v.extractLsb' 0 8).isLt
  refine (BitVec.toNat_append b (v.extractLsb' 0 8)).trans ?_
  rw [← Nat.shiftLeft_add_eq_or_of_lt hl, Nat.shiftLeft_eq]
  simp [BitVec.extractLsb'_toNat]; omega

theorem setLowByte_toNat (v : Word) (b : Byte) : (setLowByte v b).toNat = 256 * (v.toNat / 256) + b.toNat := by
  have hl := b.isLt
  have := v.isLt
  refine (BitVec.toNat_append (v.extractLsb' 8 8) b).trans ?_
  rw [← Nat.shiftLeft_add_eq_or_of_lt hl, Nat.shiftLeft_eq]
  simp [BitVec.extractLsb'_toNat, Nat.shiftRight_eq_div_pow]; omega

theorem highByte_toNat (v : Word) : (v.extractLsb' 8 8).toNat = v.toNat / 256 := by
  have := v.isLt
  simp [BitVec.extractLsb'_toNat, Nat.shiftRight_eq_div_pow]; omega

theorem lowByte_toNat (v : Word) : (v.extractLsb' 0 8).toNat = v.toNat % 256 := by
  simp [BitVec.extractLsb'_toNat]

end Machine

end Sys2Proof
end

