-- ==== Sys2Proof/Laws/Checksum.lean ====
section
/-! SUPPORT. The checksum registers as sums and as folds (spec 41_sum8.md rules R71, R72; 42_crc8.md rules R80 to R83). -/

namespace Sys2Proof.Machine

/-- Two folds that agree on the list's members agree. -/
theorem foldl_congr_mem {α β} (f g : β → α → β) (l : List α) (b : β) (h : ∀ b, ∀ x ∈ l, f b x = g b x) :
    l.foldl f b = l.foldl g b := by
  induction l generalizing b with
  | nil => rfl
  | cons x l ih => rw [List.foldl_cons, List.foldl_cons, h b x (by simp)]; exact ih _ (fun b y hy => h b y (by simp [hy]))

/-- A nibble depends on its byte alone. -/
theorem nib_congr {m m' : Memory} {n} (h : Memory.read m (n/2) = Memory.read m' (n/2)) :
    nib m n = nib m' n := by
  unfold nib; rw [h]

/-- The seed and `n` whole bytes: the nibbles 7 to `7 + 2n`, added modulo 256 (rules R38, R72). -/
theorem sumBytes_eq (m : Memory) (n : Nat) :
  sumBytes m n = BitVec.ofNat 8 (((List.range (2 * n + 1)).map (fun j => (nib m (7 + j)).toNat)).sum) := by
  induction n with
  | zero => apply byte_ext; simp [sumBytes, sumSeed, nib]; omega
  | succ n ih =>
    have e : sumBytes m (n+1) = sumByte (sumBytes m n) (Memory.read m (4 + n)) := by
      simp [sumBytes, List.range_succ]
    rw [e, ih]
    have e2 : 2 * (n+1) + 1 = 2 * n + 1 + 1 + 1 := by ring
    rw [e2, List.range_succ (n := 2*n+1+1), List.range_succ (n := 2*n+1)]
    simp only [List.map_append, List.sum_append, List.map_cons, List.map_nil, List.sum_cons, List.sum_nil, Nat.add_zero]
    have n1 : nib m (7 + (2*n+1)) = hi4 (Memory.read m (4+n)) := by
      unfold nib; rw [if_pos (by omega)]; congr 2; omega
    have n2 : nib m (7 + (2*n+1+1)) = lo4 (Memory.read m (4+n)) := by
      unfold nib; rw [if_neg (by omega)]; congr 2; omega
    rw [n1, n2]
    apply byte_ext
    simp only [sumByte, BitVec.toNat_add, BitVec.toNat_ofNat, zext8_toNat]
    omega

/-- The CRC loop is the absorbing iterations and one flush. -/
theorem crcRegister_eq (m : Memory) (count : Nat) :
    crcRegister m count = crcFlush ((List.range count).foldl (fun c j => crcAbsorb c (nib m (7+j))) 0) := by
  unfold crcRegister
  rw [List.range_succ, List.foldl_append, List.foldl_cons, List.foldl_nil, if_neg (by omega)]
  congr 1
  apply foldl_congr_mem
  intro b x hx; rw [List.mem_range] at hx
  rw [if_pos (by omega)]

/-- A round is linear. -/
theorem round_xor (a b : Byte) : crcRound (a ^^^ b) = crcRound a ^^^ crcRound b := by
  unfold crcRound
  have e : (a ^^^ b) <<< 1 = (a <<< 1) ^^^ (b <<< 1) := BitVec.shiftLeft_xor_distrib a b 1
  rw [BitVec.getLsbD_xor, e]
  cases ha : a.getLsbD 7 <;> cases hb : b.getLsbD 7 <;> simp
  · rw [BitVec.xor_assoc]
  · rw [BitVec.xor_assoc, BitVec.xor_assoc, BitVec.xor_comm 7#8]
  · generalize a <<< 1 = x; generalize b <<< 1 = y
    rw [BitVec.xor_assoc x, BitVec.xor_comm 7#8, BitVec.xor_assoc y, BitVec.xor_self, BitVec.xor_zero]

/-- Four rounds are linear. -/
theorem rounds4_xor (a b : Byte) : crcRounds4 (a ^^^ b) = crcRounds4 a ^^^ crcRounds4 b := by
  simp [crcRounds4, round_xor]

/-- Four rounds of a nibble only shift it. -/
theorem rounds4_zext (n : Nibble) : crcRounds4 (zext8 n) = zext8 n <<< 4 := by
  revert n; decide

/-- Four rounds lose nothing. -/
theorem rounds4_inj {a b : Byte} (h : crcRounds4 a = crcRounds4 b) : a = b := by
  have z : ∀ c : Byte, crcRounds4 c = 0 → c = 0 := by decide
  have := z (a ^^^ b) (by rw [rounds4_xor, h, BitVec.xor_self]; rfl)
  exact BitVec.xor_eq_zero_iff.mp this

end Sys2Proof.Machine
end

