-- ==== Sys2Proof/Laws/State.lean ====
section
/-! SUPPORT. What each named update of the state does to each field, true by definition, so that no proof unfolds an update. -/

namespace Sys2Proof.Machine

/-! ### Error entry -/

@[simp] theorem raise_mem (e : ErrKind) (cmd : Word) (s : State) : (raise e cmd s).mem = s.mem := rfl
@[simp] theorem raise_typeCode (e : ErrKind) (cmd : Word) (s : State) : (raise e cmd s).typeCode = s.typeCode := rfl
@[simp] theorem raise_chan (e : ErrKind) (cmd : Word) (s : State) : (raise e cmd s).chan = s.chan := rfl
@[simp] theorem raise_roll (e : ErrKind) (cmd : Word) (s : State) : (raise e cmd s).roll = s.roll := rfl
@[simp] theorem raise_batt (e : ErrKind) (cmd : Word) (s : State) : (raise e cmd s).batt = s.batt := rfl
@[simp] theorem raise_temp (e : ErrKind) (cmd : Word) (s : State) : (raise e cmd s).temp = s.temp := rfl
@[simp] theorem raise_hum (e : ErrKind) (cmd : Word) (s : State) : (raise e cmd s).hum = s.hum := rfl
@[simp] theorem raise_res (e : ErrKind) (cmd : Word) (s : State) : (raise e cmd s).res = s.res := rfl
@[simp] theorem raise_busy (e : ErrKind) (cmd : Word) (s : State) : (raise e cmd s).busy = s.busy := rfl
@[simp] theorem raise_err (e : ErrKind) (cmd : Word) (s : State) : (raise e cmd s).err = true := rfl
@[simp] theorem raise_errcode (e : ErrKind) (cmd : Word) (s : State) : (raise e cmd s).errcode = e.code := rfl
@[simp] theorem raise_errcw (e : ErrKind) (cmd : Word) (s : State) : (raise e cmd s).errcw = cmd := rfl
@[simp] theorem raise_next (e : ErrKind) (cmd : Word) (s : State) : (raise e cmd s).next = s.next := rfl
@[simp] theorem raise_txk (e : ErrKind) (cmd : Word) (s : State) : (raise e cmd s).txk = s.txk := rfl
@[simp] theorem raise_tx (e : ErrKind) (cmd : Word) (s : State) : (raise e cmd s).tx = s.tx := rfl
@[simp] theorem raise_now (e : ErrKind) (cmd : Word) (s : State) : (raise e cmd s).now = s.now := rfl
@[simp] theorem raise_sumr (e : ErrKind) (cmd : Word) (s : State) : (raise e cmd s).sumr = s.sumr := rfl
@[simp] theorem raise_crcr (e : ErrKind) (cmd : Word) (s : State) : (raise e cmd s).crcr = s.crcr := rfl
@[simp] theorem raise_host (e : ErrKind) (cmd : Word) (s : State) : (raise e cmd s).host = s.host := rfl
@[simp] theorem raise_draws (e : ErrKind) (cmd : Word) (s : State) : (raise e cmd s).draws = s.draws := rfl

/-! ### `SUMR` free again -/

@[simp] theorem releaseSumr_mem (s : State) : s.releaseSumr.mem = s.mem := rfl
@[simp] theorem releaseSumr_typeCode (s : State) : s.releaseSumr.typeCode = s.typeCode := rfl
@[simp] theorem releaseSumr_chan (s : State) : s.releaseSumr.chan = s.chan := rfl
@[simp] theorem releaseSumr_roll (s : State) : s.releaseSumr.roll = s.roll := rfl
@[simp] theorem releaseSumr_batt (s : State) : s.releaseSumr.batt = s.batt := rfl
@[simp] theorem releaseSumr_temp (s : State) : s.releaseSumr.temp = s.temp := rfl
@[simp] theorem releaseSumr_hum (s : State) : s.releaseSumr.hum = s.hum := rfl
@[simp] theorem releaseSumr_res (s : State) : s.releaseSumr.res = s.res := rfl
@[simp] theorem releaseSumr_busy (s : State) : s.releaseSumr.busy = s.busy := rfl
@[simp] theorem releaseSumr_err (s : State) : s.releaseSumr.err = s.err := rfl
@[simp] theorem releaseSumr_errcode (s : State) : s.releaseSumr.errcode = s.errcode := rfl
@[simp] theorem releaseSumr_errcw (s : State) : s.releaseSumr.errcw = s.errcw := rfl
@[simp] theorem releaseSumr_next (s : State) : s.releaseSumr.next = s.next := rfl
@[simp] theorem releaseSumr_txk (s : State) : s.releaseSumr.txk = s.txk := rfl
@[simp] theorem releaseSumr_tx (s : State) : s.releaseSumr.tx = s.tx := rfl
@[simp] theorem releaseSumr_now (s : State) : s.releaseSumr.now = s.now := rfl
@[simp] theorem releaseSumr_sumr (s : State) : s.releaseSumr.sumr = Config.freeValue 8 s.draws := rfl
@[simp] theorem releaseSumr_crcr (s : State) : s.releaseSumr.crcr = s.crcr := rfl
@[simp] theorem releaseSumr_host (s : State) : s.releaseSumr.host = s.host := rfl
@[simp] theorem releaseSumr_draws (s : State) : s.releaseSumr.draws = s.draws + 1 := rfl

/-! ### `CRCR` free again -/

@[simp] theorem releaseCrcr_mem (s : State) : s.releaseCrcr.mem = s.mem := rfl
@[simp] theorem releaseCrcr_typeCode (s : State) : s.releaseCrcr.typeCode = s.typeCode := rfl
@[simp] theorem releaseCrcr_chan (s : State) : s.releaseCrcr.chan = s.chan := rfl
@[simp] theorem releaseCrcr_roll (s : State) : s.releaseCrcr.roll = s.roll := rfl
@[simp] theorem releaseCrcr_batt (s : State) : s.releaseCrcr.batt = s.batt := rfl
@[simp] theorem releaseCrcr_temp (s : State) : s.releaseCrcr.temp = s.temp := rfl
@[simp] theorem releaseCrcr_hum (s : State) : s.releaseCrcr.hum = s.hum := rfl
@[simp] theorem releaseCrcr_res (s : State) : s.releaseCrcr.res = s.res := rfl
@[simp] theorem releaseCrcr_busy (s : State) : s.releaseCrcr.busy = s.busy := rfl
@[simp] theorem releaseCrcr_err (s : State) : s.releaseCrcr.err = s.err := rfl
@[simp] theorem releaseCrcr_errcode (s : State) : s.releaseCrcr.errcode = s.errcode := rfl
@[simp] theorem releaseCrcr_errcw (s : State) : s.releaseCrcr.errcw = s.errcw := rfl
@[simp] theorem releaseCrcr_next (s : State) : s.releaseCrcr.next = s.next := rfl
@[simp] theorem releaseCrcr_txk (s : State) : s.releaseCrcr.txk = s.txk := rfl
@[simp] theorem releaseCrcr_tx (s : State) : s.releaseCrcr.tx = s.tx := rfl
@[simp] theorem releaseCrcr_now (s : State) : s.releaseCrcr.now = s.now := rfl
@[simp] theorem releaseCrcr_sumr (s : State) : s.releaseCrcr.sumr = s.sumr := rfl
@[simp] theorem releaseCrcr_crcr (s : State) : s.releaseCrcr.crcr = Config.freeValue 8 s.draws := rfl
@[simp] theorem releaseCrcr_host (s : State) : s.releaseCrcr.host = s.host := rfl
@[simp] theorem releaseCrcr_draws (s : State) : s.releaseCrcr.draws = s.draws + 1 := rfl

/-! ### `NEXT` and `TXK` free again -/

@[simp] theorem releaseFrame_mem (s : State) : s.releaseFrame.mem = s.mem := rfl
@[simp] theorem releaseFrame_typeCode (s : State) : s.releaseFrame.typeCode = s.typeCode := rfl
@[simp] theorem releaseFrame_chan (s : State) : s.releaseFrame.chan = s.chan := rfl
@[simp] theorem releaseFrame_roll (s : State) : s.releaseFrame.roll = s.roll := rfl
@[simp] theorem releaseFrame_batt (s : State) : s.releaseFrame.batt = s.batt := rfl
@[simp] theorem releaseFrame_temp (s : State) : s.releaseFrame.temp = s.temp := rfl
@[simp] theorem releaseFrame_hum (s : State) : s.releaseFrame.hum = s.hum := rfl
@[simp] theorem releaseFrame_res (s : State) : s.releaseFrame.res = s.res := rfl
@[simp] theorem releaseFrame_busy (s : State) : s.releaseFrame.busy = s.busy := rfl
@[simp] theorem releaseFrame_err (s : State) : s.releaseFrame.err = s.err := rfl
@[simp] theorem releaseFrame_errcode (s : State) : s.releaseFrame.errcode = s.errcode := rfl
@[simp] theorem releaseFrame_errcw (s : State) : s.releaseFrame.errcw = s.errcw := rfl
@[simp] theorem releaseFrame_next (s : State) : s.releaseFrame.next = Config.freeValue Config.params.tw s.draws := rfl
@[simp] theorem releaseFrame_txk (s : State) : s.releaseFrame.txk = Config.freeValue 7 (s.draws + 1) := rfl
@[simp] theorem releaseFrame_tx (s : State) : s.releaseFrame.tx = s.tx := rfl
@[simp] theorem releaseFrame_now (s : State) : s.releaseFrame.now = s.now := rfl
@[simp] theorem releaseFrame_sumr (s : State) : s.releaseFrame.sumr = s.sumr := rfl
@[simp] theorem releaseFrame_crcr (s : State) : s.releaseFrame.crcr = s.crcr := rfl
@[simp] theorem releaseFrame_host (s : State) : s.releaseFrame.host = s.host := rfl
@[simp] theorem releaseFrame_draws (s : State) : s.releaseFrame.draws = s.draws + 2 := rfl

/-! ### The encoder's registers replaced -/

@[simp] theorem setFrame_mem (s : State) (f : Frame Config.params.tw) : (s.setFrame f).mem = s.mem := rfl
@[simp] theorem setFrame_typeCode (s : State) (f : Frame Config.params.tw) : (s.setFrame f).typeCode = s.typeCode := rfl
@[simp] theorem setFrame_chan (s : State) (f : Frame Config.params.tw) : (s.setFrame f).chan = s.chan := rfl
@[simp] theorem setFrame_roll (s : State) (f : Frame Config.params.tw) : (s.setFrame f).roll = s.roll := rfl
@[simp] theorem setFrame_batt (s : State) (f : Frame Config.params.tw) : (s.setFrame f).batt = s.batt := rfl
@[simp] theorem setFrame_temp (s : State) (f : Frame Config.params.tw) : (s.setFrame f).temp = s.temp := rfl
@[simp] theorem setFrame_hum (s : State) (f : Frame Config.params.tw) : (s.setFrame f).hum = s.hum := rfl
@[simp] theorem setFrame_res (s : State) (f : Frame Config.params.tw) : (s.setFrame f).res = s.res := rfl
@[simp] theorem setFrame_busy (s : State) (f : Frame Config.params.tw) : (s.setFrame f).busy = f.busy := rfl
@[simp] theorem setFrame_err (s : State) (f : Frame Config.params.tw) : (s.setFrame f).err = s.err := rfl
@[simp] theorem setFrame_errcode (s : State) (f : Frame Config.params.tw) : (s.setFrame f).errcode = s.errcode := rfl
@[simp] theorem setFrame_errcw (s : State) (f : Frame Config.params.tw) : (s.setFrame f).errcw = s.errcw := rfl
@[simp] theorem setFrame_next (s : State) (f : Frame Config.params.tw) : (s.setFrame f).next = f.next := rfl
@[simp] theorem setFrame_txk (s : State) (f : Frame Config.params.tw) : (s.setFrame f).txk = f.txk := rfl
@[simp] theorem setFrame_tx (s : State) (f : Frame Config.params.tw) : (s.setFrame f).tx = f.tx := rfl
@[simp] theorem setFrame_now (s : State) (f : Frame Config.params.tw) : (s.setFrame f).now = s.now := rfl
@[simp] theorem setFrame_sumr (s : State) (f : Frame Config.params.tw) : (s.setFrame f).sumr = s.sumr := rfl
@[simp] theorem setFrame_crcr (s : State) (f : Frame Config.params.tw) : (s.setFrame f).crcr = s.crcr := rfl
@[simp] theorem setFrame_host (s : State) (f : Frame Config.params.tw) : (s.setFrame f).host = s.host := rfl
@[simp] theorem setFrame_draws (s : State) (f : Frame Config.params.tw) : (s.setFrame f).draws = s.draws := rfl

/-! ### `NOW` counts -/

@[simp] theorem countMicrosecond_mem (s : State) : s.countMicrosecond.mem = s.mem := rfl
@[simp] theorem countMicrosecond_typeCode (s : State) : s.countMicrosecond.typeCode = s.typeCode := rfl
@[simp] theorem countMicrosecond_chan (s : State) : s.countMicrosecond.chan = s.chan := rfl
@[simp] theorem countMicrosecond_roll (s : State) : s.countMicrosecond.roll = s.roll := rfl
@[simp] theorem countMicrosecond_batt (s : State) : s.countMicrosecond.batt = s.batt := rfl
@[simp] theorem countMicrosecond_temp (s : State) : s.countMicrosecond.temp = s.temp := rfl
@[simp] theorem countMicrosecond_hum (s : State) : s.countMicrosecond.hum = s.hum := rfl
@[simp] theorem countMicrosecond_res (s : State) : s.countMicrosecond.res = s.res := rfl
@[simp] theorem countMicrosecond_busy (s : State) : s.countMicrosecond.busy = s.busy := rfl
@[simp] theorem countMicrosecond_err (s : State) : s.countMicrosecond.err = s.err := rfl
@[simp] theorem countMicrosecond_errcode (s : State) : s.countMicrosecond.errcode = s.errcode := rfl
@[simp] theorem countMicrosecond_errcw (s : State) : s.countMicrosecond.errcw = s.errcw := rfl
@[simp] theorem countMicrosecond_next (s : State) : s.countMicrosecond.next = s.next := rfl
@[simp] theorem countMicrosecond_txk (s : State) : s.countMicrosecond.txk = s.txk := rfl
@[simp] theorem countMicrosecond_tx (s : State) : s.countMicrosecond.tx = s.tx := rfl
@[simp] theorem countMicrosecond_now (s : State) : s.countMicrosecond.now = addT s.now (micros Config.params.tw 1) := rfl
@[simp] theorem countMicrosecond_sumr (s : State) : s.countMicrosecond.sumr = s.sumr := rfl
@[simp] theorem countMicrosecond_crcr (s : State) : s.countMicrosecond.crcr = s.crcr := rfl
@[simp] theorem countMicrosecond_host (s : State) : s.countMicrosecond.host = s.host := rfl
@[simp] theorem countMicrosecond_draws (s : State) : s.countMicrosecond.draws = s.draws := rfl

/-! ### A word presented -/

@[simp] theorem presentWord_mem (cmd : Word) (s : State) : (presentWord cmd s).mem = s.mem := rfl
@[simp] theorem presentWord_typeCode (cmd : Word) (s : State) : (presentWord cmd s).typeCode = s.typeCode := rfl
@[simp] theorem presentWord_chan (cmd : Word) (s : State) : (presentWord cmd s).chan = s.chan := rfl
@[simp] theorem presentWord_roll (cmd : Word) (s : State) : (presentWord cmd s).roll = s.roll := rfl
@[simp] theorem presentWord_batt (cmd : Word) (s : State) : (presentWord cmd s).batt = s.batt := rfl
@[simp] theorem presentWord_temp (cmd : Word) (s : State) : (presentWord cmd s).temp = s.temp := rfl
@[simp] theorem presentWord_hum (cmd : Word) (s : State) : (presentWord cmd s).hum = s.hum := rfl
@[simp] theorem presentWord_res (cmd : Word) (s : State) : (presentWord cmd s).res = s.res := rfl
@[simp] theorem presentWord_busy (cmd : Word) (s : State) : (presentWord cmd s).busy = s.busy := rfl
@[simp] theorem presentWord_err (cmd : Word) (s : State) : (presentWord cmd s).err = s.err := rfl
@[simp] theorem presentWord_errcode (cmd : Word) (s : State) : (presentWord cmd s).errcode = s.errcode := rfl
@[simp] theorem presentWord_errcw (cmd : Word) (s : State) : (presentWord cmd s).errcw = s.errcw := rfl
@[simp] theorem presentWord_next (cmd : Word) (s : State) : (presentWord cmd s).next = s.next := rfl
@[simp] theorem presentWord_txk (cmd : Word) (s : State) : (presentWord cmd s).txk = s.txk := rfl
@[simp] theorem presentWord_tx (cmd : Word) (s : State) : (presentWord cmd s).tx = s.tx := rfl
@[simp] theorem presentWord_now (cmd : Word) (s : State) : (presentWord cmd s).now = s.now := rfl
@[simp] theorem presentWord_sumr (cmd : Word) (s : State) : (presentWord cmd s).sumr = s.sumr := rfl
@[simp] theorem presentWord_crcr (cmd : Word) (s : State) : (presentWord cmd s).crcr = s.crcr := rfl
@[simp] theorem presentWord_host (cmd : Word) (s : State) : (presentWord cmd s).host = .hold cmd :: s.host := rfl
@[simp] theorem presentWord_draws (cmd : Word) (s : State) : (presentWord cmd s).draws = s.draws := rfl

/-! ### `rst` -/

@[simp] theorem assertReset_mem (s : State) : (assertReset s).mem = Memory.freeFilled s.draws := by
  rw [assertReset]
@[simp] theorem assertReset_typeCode (s : State) : (assertReset s).typeCode = 0xF824 := rfl
@[simp] theorem assertReset_chan (s : State) : (assertReset s).chan = Config.freeValue 8 (s.draws + 13) := rfl
@[simp] theorem assertReset_roll (s : State) : (assertReset s).roll = Config.freeValue 8 (s.draws + 14) := rfl
@[simp] theorem assertReset_batt (s : State) : (assertReset s).batt = 0 := rfl
@[simp] theorem assertReset_temp (s : State) : (assertReset s).temp = Config.freeValue 16 (s.draws + 15) := rfl
@[simp] theorem assertReset_hum (s : State) : (assertReset s).hum = Config.freeValue 8 (s.draws + 16) := rfl
@[simp] theorem assertReset_res (s : State) : (assertReset s).res = Config.freeValue 8 (s.draws + 17) := rfl
@[simp] theorem assertReset_busy (s : State) : (assertReset s).busy = false := rfl
@[simp] theorem assertReset_err (s : State) : (assertReset s).err = false := rfl
@[simp] theorem assertReset_errcode (s : State) : (assertReset s).errcode = 0 := rfl
@[simp] theorem assertReset_errcw (s : State) : (assertReset s).errcw = 0 := rfl
@[simp] theorem assertReset_next (s : State) : (assertReset s).next = Config.freeValue Config.params.tw (s.draws + 18) := rfl
@[simp] theorem assertReset_txk (s : State) : (assertReset s).txk = Config.freeValue 7 (s.draws + 19) := rfl
@[simp] theorem assertReset_tx (s : State) : (assertReset s).tx = false := rfl
@[simp] theorem assertReset_now (s : State) : (assertReset s).now = Config.freeValue Config.params.tw (s.draws + 20) := rfl
@[simp] theorem assertReset_sumr (s : State) : (assertReset s).sumr = Config.freeValue 8 (s.draws + 21) := rfl
@[simp] theorem assertReset_crcr (s : State) : (assertReset s).crcr = Config.freeValue 8 (s.draws + 22) := rfl
@[simp] theorem assertReset_host (s : State) : (assertReset s).host = s.host := rfl
@[simp] theorem assertReset_draws (s : State) : (assertReset s).draws = s.draws + 23 := rfl

/-! ### The encoder's view -/

@[simp] theorem setFrame_frame (s : State) : s.setFrame s.frame = s := rfl
@[simp] theorem frame_setFrame (s : State) (f : Frame Config.params.tw) : (s.setFrame f).frame = f := rfl
@[simp] theorem frame_busy (s : State) : s.frame.busy = s.busy := rfl
@[simp] theorem frame_tx (s : State) : s.frame.tx = s.tx := rfl
@[simp] theorem frame_txk (s : State) : s.frame.txk = s.txk := rfl
@[simp] theorem frame_next (s : State) : s.frame.next = s.next := rfl
@[simp] theorem frame_countMicrosecond (s : State) : s.countMicrosecond.frame = s.frame := rfl

end Sys2Proof.Machine
end

