-- ==== Sys2Proof/Laws/Timer.lean ====
section
/-! SUPPORT. The deadline test as a comparison of true distances (spec 60_exceptions.md rule R152). -/

namespace Sys2Proof.Machine

@[simp] theorem addT_toNat {w : Nat} (x y : BitVec w) : (addT x y).toNat = (x.toNat + y.toNat) % 2 ^ w :=
  BitVec.toNat_add x y

@[simp] theorem subT_toNat {w : Nat} (x y : BitVec w) : (subT x y).toNat = (2 ^ w - y.toNat + x.toNat) % 2 ^ w :=
  BitVec.toNat_sub x y

@[simp] theorem micros_toNat (w n : Nat) : (micros w n).toNat = n % 2 ^ w := BitVec.toNat_ofNat n w

@[simp] theorem subT_self {w : Nat} (x : BitVec w) : subT x x = 0 := by simp [subT]

theorem subT_addT {w : Nat} (x y : BitVec w) : subT (addT x y) x = y := by
  simp [subT, addT]

/-- With `d` the distance from `now` forward to `t`, not zero and at most half the range, `t` is not reached. -/
theorem not_reached_of_distance {w : Nat} {now t : BitVec w} (h0 : 0 < (subT t now).toNat)
    (h : (subT t now).toNat ≤ 2 ^ (w - 1)) : reached now t = false := by
  have e : subT now t = -(subT t now) := by simp [subT]
  have hw : w ≠ 0 := by
    rintro rfl
    have := (subT t now).isLt
    omega
  have hp : 2 ^ w = 2 * 2 ^ (w - 1) := by
    obtain ⟨v, rfl⟩ := Nat.exists_eq_succ_of_ne_zero hw
    simp [Nat.pow_succ, Nat.mul_comm]
  have hl := (subT t now).isLt
  simp only [reached, e, decide_eq_false_iff_not, BitVec.toNat_neg]
  rw [Nat.mod_eq_of_lt (by omega)]
  omega

/-- A deadline is reached at its own tick. -/
theorem reached_self {w : Nat} (t : BitVec w) : reached t t = true := by
  simp [reached]

end Sys2Proof.Machine
end

