-- ==== Sys2Proof/Laws/Encoder.lean ====
section
/-! SUPPORT. What the encoder can do at one instant, and what a tick can do to the state (spec 45_xmit.md rules R120 to R131). -/

namespace Sys2Proof.Machine

variable {w : Nat} (p : Params) (m : Memory) (now : BitVec w)

/-- An idle encoder does nothing. -/
theorem settle_idle (fuel : Nat) {f : Frame w} (h : f.busy = false) : f.settle p m now fuel = f := by
  cases fuel <;> simp [Frame.settle, h]

/-- An encoder whose deadline is not reached does nothing. -/
theorem settle_waiting (fuel : Nat) {f : Frame w} (h : reached now (f.deadline p m) = false) :
    f.settle p m now fuel = f := by
  cases fuel <;> simp [Frame.settle, h]

/-- An encoder whose deadline is reached makes one advance and goes on. -/
theorem settle_advance (fuel : Nat) {f : Frame w} (hb : f.busy = true) (h : reached now (f.deadline p m) = true) :
    f.settle p m now (fuel + 1) = (f.advance p m).settle p m now fuel := by
  simp [Frame.settle, hb, h]

/-- How many waits of the frame are still to complete, at most. -/
def waitsLeft (f : Frame w) : Nat :=
  if f.txk.toNat < frameBits then 2 * (frameBits - f.txk.toNat) + (f.inFirst m).toNat else 1

theorem waitsLeft_le (f : Frame w) : waitsLeft m f ≤ frameWaits := by
  unfold waitsLeft frameWaits
  split
  · have := Bool.toNat_le (f.inFirst m)
    omega
  · simp only [frameBits]; omega

/-- An advance ends the frame or completes one of the waits. -/
theorem advance_progress (f : Frame w) :
    (f.advance p m).busy = false ∨ waitsLeft m (f.advance p m) < waitsLeft m f := by
  unfold Frame.advance
  split
  · rename_i h
    have h' := h
    simp only [Frame.inFirst, Bool.and_eq_true, decide_eq_true_eq, beq_iff_eq] at h'
    have hn : Frame.inFirst m { f with tx := !f.tx } = false := by
      simp [Frame.inFirst, h'.2]
    right
    simp [waitsLeft, h, hn, h'.1]
  · split
    · rename_i h hk
      right
      have e : (BitVec.ofNat 7 (f.txk.toNat + 1)).toNat = f.txk.toNat + 1 := by
        have := f.txk.isLt
        simp only [frameBits] at hk
        rw [BitVec.toNat_ofNat]; omega
      have hk' : f.txk.toNat < frameBits := by omega
      have hl : waitsLeft m f = 2 * (frameBits - f.txk.toNat) := by simp [waitsLeft, hk', h]
      have hr := Bool.toNat_le ((Frame.beginCell p m (f.txk.toNat + 1) f).inFirst m)
      rw [hl, waitsLeft, show (Frame.beginCell p m (f.txk.toNat + 1) f).txk.toNat = f.txk.toNat + 1 from e, if_pos hk]
      omega
    · split
      · rename_i h hk hk'
        have e : (104 : BitVec 7).toNat = 104 := rfl
        unfold Frame.afterLastCell
        split
        · left; rfl
        · right
          have hl : waitsLeft m f = 2 * (frameBits - f.txk.toNat) := by simp [waitsLeft, hk', h]
          have hr : waitsLeft m { f with txk := 104, tx := false, next := addT f.next (micros w p.unitUs) } = 1 := by
            simp [waitsLeft, frameBits]
          rw [hl, hr]; omega
      · left; rfl

/-- With fuel for the waits left, the encoder stops only where it waits, or at the frame's end (rule R129). -/
theorem settle_stops (fuel : Nat) (f : Frame w) (hf : waitsLeft m f ≤ fuel) :
    (f.settle p m now fuel).busy = false ∨
      reached now ((f.settle p m now fuel).deadline p m) = false := by
  induction fuel generalizing f with
  | zero =>
    exfalso
    unfold waitsLeft at hf
    split at hf <;> omega
  | succ fuel ih =>
    by_cases hb : f.busy = true
    · by_cases hr : reached now (f.deadline p m) = true
      · rw [settle_advance p m now fuel hb hr]
        rcases advance_progress p m f with h | h
        · rw [settle_idle p m now fuel h]; exact .inl h
        · exact ih _ (by omega)
      · rw [settle_waiting p m now _ (Bool.not_eq_true _ ▸ hr)]; exact .inr (Bool.not_eq_true _ ▸ hr)
    · rw [settle_idle p m now _ (Bool.not_eq_true _ ▸ hb)]; exact .inl (Bool.not_eq_true _ ▸ hb)

/-- An advance that ends the frame leaves the line LOW (rules R130, R131). -/
theorem advance_end_low {f : Frame w} (hf : f.busy = true) (h : (f.advance p m).busy = false) :
    (f.advance p m).tx = false := by
  unfold Frame.advance at h ⊢
  split
  · rename_i h1; simp [h1, hf] at h
  · rename_i h1
    split
    · rename_i h2; simp [h1, h2, Frame.beginCell, hf] at h
    · split
      · unfold Frame.afterLastCell; split <;> rfl
      · rfl

/-- An encoder that was idle with the line LOW, or transmitting, is LOW when it is idle afterwards. -/
theorem settle_idle_low (fuel : Nat) (f : Frame w) (hf : f.busy = false → f.tx = false) :
    (f.settle p m now fuel).busy = false → (f.settle p m now fuel).tx = false := by
  induction fuel generalizing f with
  | zero => exact hf
  | succ fuel ih =>
    by_cases hb : f.busy = true
    · by_cases hr : reached now (f.deadline p m) = true
      · rw [settle_advance p m now fuel hb hr]
        exact ih _ (advance_end_low p m hb)
      · rw [settle_waiting p m now _ (Bool.not_eq_true _ ▸ hr)]; exact hf
    · rw [settle_idle p m now _ (Bool.not_eq_true _ ▸ hb)]; exact hf

/-! ### A tick of the state -/

/-- Everything taking the encoder's registers can change. -/
theorem takeFrame_keeps (s : State) (f : Frame Config.params.tw) :
    s.takeFrame f = { s with
      busy := f.busy, tx := f.tx, txk := (s.takeFrame f).txk, next := (s.takeFrame f).next
      draws := (s.takeFrame f).draws } := by
  unfold State.takeFrame
  split <;> rfl

theorem takeFrame_of_busy (s : State) {f : Frame Config.params.tw} (h : s.busy = true → f.busy = true) :
    s.takeFrame f = s.setFrame f := by
  unfold State.takeFrame
  rw [if_neg]
  cases hs : s.busy
  · simp
  · simp [h hs]

/-- The encoder's registers after the coming tick, but for what a frame's end leaves free. -/
def settledFrame (s : State) : Frame Config.params.tw :=
  s.frame.settle Config.params s.mem (addT s.now (micros Config.params.tw 1)) frameWaits

theorem tick_eq (s : State) : tick s = s.countMicrosecond.takeFrame (settledFrame s) := rfl

/-- A tick of an idle block counts, and that is all. -/
theorem tick_idle {s : State} (h : s.busy = false) : tick s = s.countMicrosecond := by
  rw [tick_eq, settledFrame, settle_idle _ _ _ _ h, takeFrame_of_busy _ (by simp)]
  rfl

/-- A tick in which no deadline is reached counts, and that is all. -/
theorem tick_waiting {s : State}
    (h : reached (addT s.now (micros _ 1)) (s.frame.deadline Config.params s.mem) = false) :
    tick s = s.countMicrosecond := by
  rw [tick_eq, settledFrame, settle_waiting _ _ _ _ h, takeFrame_of_busy _ (by simp)]
  rfl

/-- Everything a tick can change: `NOW`, the encoder's registers, and the count of free values. -/
theorem tick_keeps (s : State) :
    tick s = { s with
      busy := (settledFrame s).busy, tx := (settledFrame s).tx, txk := (tick s).txk, next := (tick s).next
      now := addT s.now (micros Config.params.tw 1), draws := (tick s).draws } := by
  rw [tick_eq, takeFrame_keeps]
  rfl

/-- While the block stays busy a tick leaves the settled encoder. -/
theorem tick_of_busy {s : State} (h : (settledFrame s).busy = true) :
    tick s = s.countMicrosecond.setFrame (settledFrame s) :=
  takeFrame_of_busy _ fun _ => h

theorem takeFrame_withHost (s : State) (f : Frame Config.params.tw) (l : List HostAct) :
    State.takeFrame { s with host := l } f = { s.takeFrame f with host := l } := by
  rcases s with ⟨_, _, _, _, _, _, _, _, busy⟩
  rcases f with ⟨fbusy⟩
  cases busy <;> cases fbusy <;> rfl

/-- A tick does not look at what the host does next. -/
theorem tick_withHost (s : State) (l : List HostAct) :
    tick { s with host := l } = { tick s with host := l } :=
  takeFrame_withHost s.countMicrosecond (settledFrame s) l

@[simp] theorem tick_busy (s : State) : (tick s).busy = (settledFrame s).busy := by rw [tick_keeps]
@[simp] theorem tick_tx (s : State) : (tick s).tx = (settledFrame s).tx := by rw [tick_keeps]
@[simp] theorem tick_mem (s : State) : (tick s).mem = s.mem := by rw [tick_keeps]
@[simp] theorem tick_err (s : State) : (tick s).err = s.err := by rw [tick_keeps]
@[simp] theorem tick_errcode (s : State) : (tick s).errcode = s.errcode := by rw [tick_keeps]
@[simp] theorem tick_errcw (s : State) : (tick s).errcw = s.errcw := by rw [tick_keeps]
@[simp] theorem tick_host (s : State) : (tick s).host = s.host := by rw [tick_keeps]
@[simp] theorem tick_now (s : State) : (tick s).now = addT s.now (micros Config.params.tw 1) := by rw [tick_keeps]

end Sys2Proof.Machine
end

