-- ==== Sys2Proof/Laws/Exec.lean ====
section
/-! SUPPORT. Inversion: all that a command, an acceptance and a step can do. A command either has its effect or is refused with an error
entry (spec 60_exceptions.md rule R142). -/

namespace Sys2Proof.Machine

/-- What an error entry of command `i` in state `s` leaves. -/
def ErrorEntry (i : Instr) (s t : State) : Prop := ∃ e, t = raise e (encode i) s

theorem execLdb_cases {a : Nibble} {v : Byte} {s t : State} (h : execLdb a v s = .next t) :
    ErrorEntry (.ldb a v) s t ∨ t = { s with mem := Memory.write s.mem a.toNat v } := by
  unfold execLdb at h
  split at h <;> cases h
  · exact .inl ⟨_, rfl⟩
  · exact .inr rfl

theorem execRdb_cases {a : Nibble} {v : Byte} {s t : State} (h : execRdb a v s = .next t) :
    ErrorEntry (.rdb a v) s t ∨ t = { s with res := Memory.read s.mem a.toNat } := by
  unfold execRdb at h
  split at h
  · cases h; exact .inl ⟨_, rfl⟩
  · split at h <;> cases h
    · exact .inl ⟨_, rfl⟩
    · exact .inr rfl

theorem execLdr_cases {a : Nibble} {v : Byte} {s t : State} (h : execLdr a v s = .next t) :
    ErrorEntry (.ldr a v) s t ∨ t = writeReg a v s := by
  unfold execLdr at h
  split at h
  · cases h; exact .inl ⟨_, rfl⟩
  · split at h <;> cases h
    · exact .inl ⟨_, rfl⟩
    · exact .inr rfl

theorem execRdr_cases {a : Nibble} {v : Byte} {s t : State} (h : execRdr a v s = .next t) :
    ErrorEntry (.rdr a v) s t ∨ t = { s with res := readReg s a } := by
  unfold execRdr at h
  split at h
  · cases h; exact .inl ⟨_, rfl⟩
  · split at h <;> cases h
    · exact .inl ⟨_, rfl⟩
    · exact .inr rfl

theorem execSum8_cases {a : Nibble} {v : Byte} {s t : State} (h : execSum8 a v s = .next t) :
    ErrorEntry (.sum8 a v) s t ∨ t = { s with res := simpleChecksum s.mem v.toNat }.releaseSumr := by
  unfold execSum8 at h
  split at h
  · cases h; exact .inl ⟨_, rfl⟩
  · split at h <;> cases h
    · exact .inl ⟨_, rfl⟩
    · exact .inr rfl

theorem execCrc8_cases {a : Nibble} {v : Byte} {s t : State} (h : execCrc8 a v s = .next t) :
    ErrorEntry (.crc8 a v) s t ∨ t = { s with res := crc8 s.mem v.toNat }.releaseCrcr := by
  unfold execCrc8 at h
  split at h
  · cases h; exact .inl ⟨_, rfl⟩
  · split at h <;> cases h
    · exact .inl ⟨_, rfl⟩
    · exact .inr rfl

theorem execBcde_cases {a : Nibble} {v : Byte} {s t : State} (h : execBcde a v s = .next t) :
    ErrorEntry (.bcde a v) s t ∨ t = { s with mem := storeBcd (bcdEncode s.temp s.hum) s.mem } := by
  unfold execBcde at h
  split at h <;> cases h
  · exact .inl ⟨_, rfl⟩
  · exact .inr rfl

theorem execBcdd_cases {a : Nibble} {v : Byte} {s t : State} (h : execBcdd a v s = .next t) :
    ErrorEntry (.bcdd a v) s t ∨
      ∃ temp hum, bcdDecode (bcdNibblesOf s.mem) = some (temp, hum) ∧ t = { s with temp := temp, hum := hum } := by
  unfold execBcdd at h
  split at h
  · cases h; exact .inl ⟨_, rfl⟩
  · split at h <;> cases h
    · exact .inl ⟨_, rfl⟩
    · rename_i e; exact .inr ⟨_, _, e, rfl⟩

theorem execBuild_cases {a : Nibble} {v : Byte} {s t : State} (h : execBuild a v s = .next t) :
    ErrorEntry (.build a v) s t ∨
      t = ({ s with mem := build s.typeCode s.chan s.roll s.batt s.temp s.hum } : State).releaseSumr.releaseCrcr := by
  unfold execBuild at h
  split at h <;> cases h
  · exact .inl ⟨_, rfl⟩
  · exact .inr rfl

theorem execXmit_cases {a : Nibble} {v : Byte} {s t : State} (h : execXmit a v s = .next t) :
    ErrorEntry (.xmit a v) s t ∨ t = s.setFrame (Frame.start Config.params s.mem s.now) := by
  unfold execXmit at h
  split at h <;> cases h
  · exact .inl ⟨_, rfl⟩
  · exact .inr rfl

/-- All that writing a register can change. -/
theorem writeReg_keeps (a : Nibble) (v : Byte) (s : State) :
    writeReg a v s = { s with
      typeCode := (writeReg a v s).typeCode, chan := (writeReg a v s).chan, roll := (writeReg a v s).roll
      batt := (writeReg a v s).batt, temp := (writeReg a v s).temp, hum := (writeReg a v s).hum } := by
  unfold writeReg
  split <;> rfl

/-- An accepted word is a command and has its meaning, or is none and raises `ErrIllegal`. -/
theorem accept_cases {w : Word} {s t : State} (h : accept w s = .next t) :
    (∃ i, decode w = .ok i ∧ exec i s = .next t) ∨ t = raise .illegal w s := by
  unfold accept at h
  split at h
  · rename_i i e; exact .inl ⟨i, e, h⟩
  · cases h; exact .inr rfl

/-- A step is a reset, a tick, or the acceptance of the presented word by a ready block. -/
theorem step_cases {s t : State} (h : step s = .next t) :
    (∃ rest, s.host = .rst :: rest ∧ t = assertReset { s with host := rest }) ∨
    (s.noResetNext ∧ ∃ rest, (rest = s.host ∨ ∃ x, s.host = x :: rest) ∧ t = tick { s with host := rest }) ∨
    (∃ w rest, (s.host = .hold w :: rest ∨ s.host = .offer w :: rest) ∧ s.cmdReady = true ∧
      accept w { s with host := rest } = .next t) := by
  unfold step portStep at h
  split at h
  · rename_i e
    cases h
    refine .inr (.inl ⟨by simp [State.noResetNext, e], s.host, .inl rfl, rfl⟩)
  · rename_i rest e
    cases h
    exact .inl ⟨rest, e, rfl⟩
  · rename_i rest e
    cases h
    exact .inr (.inl ⟨by simp [State.noResetNext, e], rest, .inr ⟨_, e⟩, rfl⟩)
  · rename_i w rest e
    split at h
    · rename_i hr; exact .inr (.inr ⟨w, rest, .inl e, hr, h⟩)
    · cases h; exact .inr (.inl ⟨by simp [State.noResetNext, e], s.host, .inl rfl, rfl⟩)
  · rename_i w rest e
    split at h
    · rename_i hr; exact .inr (.inr ⟨w, rest, .inr e, hr, h⟩)
    · cases h; exact .inr (.inl ⟨by simp [State.noResetNext, e], rest, .inr ⟨_, e⟩, rfl⟩)

/-- A block that is not ready, with no reset next, ticks; what the host does next is all that depends on what it presents. -/
theorem step_not_ready {s : State} (hr : s.cmdReady = false) (hn : s.noResetNext) :
    ∃ rest, (rest = s.host ∨ ∃ x, s.host = x :: rest) ∧ step s = .next (tick { s with host := rest }) := by
  unfold step portStep
  split
  · exact ⟨s.host, .inl rfl, rfl⟩
  · rename_i rest e; exact absurd e (hn rest)
  · rename_i rest e; exact ⟨rest, .inr ⟨_, e⟩, rfl⟩
  · rename_i w rest e; rw [hr]; exact ⟨s.host, .inl rfl, rfl⟩
  · rename_i w rest e; rw [hr]; exact ⟨rest, .inr ⟨_, e⟩, rfl⟩

end Sys2Proof.Machine
end

