-- ==== Sys2Proof/Laws/Memory.lean ====
section
/-! SUPPORT. The payload buffer: canonical form, read after write, and that equal reads make equal buffers. -/

namespace Sys2Proof.Machine

theorem wfFrom_mono {m : Memory} {lo lo' : Nat} (h : Memory.wfFrom lo m = true) (hl : lo' ≤ lo) :
    Memory.wfFrom lo' m = true := by
  cases m with
  | nil => rfl
  | cons c m =>
    simp only [Memory.wfFrom, Bool.and_eq_true, decide_eq_true_eq] at h ⊢
    exact ⟨⟨by omega, h.1.2⟩, h.2⟩

/-- Below its first address a canonical list reads as unlisted. -/
theorem read_below {m : Memory} {lo i : Nat} (h : Memory.wfFrom lo m = true) (hi : i < lo) :
    Memory.read m i = unlistedByte := by
  induction m generalizing lo with
  | nil => rfl
  | cons c m ih =>
    simp only [Memory.wfFrom, Bool.and_eq_true, decide_eq_true_eq] at h
    rw [Memory.read, if_neg (by omega)]
    exact ih h.2 (by omega)

theorem wfFrom_put {m : Memory} {lo i : Nat} {b : Byte} (h : Memory.wfFrom lo m = true) (hl : lo ≤ i)
    (hi : i < bufferSize) : Memory.wfFrom lo (Memory.put m i b) = true := by
  induction m generalizing lo with
  | nil =>
    simp only [Memory.put]
    split
    · rfl
    · rename_i hb; simp [Memory.wfFrom, hl, hi, hb]
  | cons c m ih =>
    have h' := h
    simp only [Memory.wfFrom, Bool.and_eq_true, decide_eq_true_eq] at h'
    obtain ⟨⟨h1, h2, h3⟩, h4⟩ := h'
    simp only [Memory.put]
    split
    · rename_i hlt
      split
      · exact h
      · rename_i hb
        simp only [Memory.wfFrom, Bool.and_eq_true, decide_eq_true_eq]
        exact ⟨⟨hl, hi, hb⟩, ⟨by omega, h2, h3⟩, h4⟩
    · split
      · rename_i hge heq
        split
        · exact wfFrom_mono h4 (by omega)
        · rename_i hb
          simp only [Memory.wfFrom, Bool.and_eq_true, decide_eq_true_eq]
          exact ⟨⟨hl, hi, hb⟩, heq ▸ h4⟩
      · rename_i hge hne
        simp only [Memory.wfFrom, Bool.and_eq_true, decide_eq_true_eq]
        exact ⟨⟨h1, h2, h3⟩, ih h4 (by omega)⟩

theorem read_put_self {m : Memory} {lo i : Nat} {b : Byte} (h : Memory.wfFrom lo m = true) :
    Memory.read (Memory.put m i b) i = b := by
  induction m generalizing lo with
  | nil =>
    simp only [Memory.put]
    split
    · rename_i hb; rw [hb]; rfl
    · simp [Memory.read]
  | cons c m ih =>
    simp only [Memory.wfFrom, Bool.and_eq_true, decide_eq_true_eq] at h
    simp only [Memory.put]
    split
    · rename_i hlt
      split
      · rename_i hb
        rw [Memory.read, if_neg (by omega), read_below h.2 (by omega), hb]
      · simp [Memory.read]
    · split
      · rename_i hge heq
        split
        · rename_i hb; rw [read_below h.2 (by omega), hb]
        · simp [Memory.read]
      · rename_i hge hne
        rw [Memory.read, if_neg hne]
        exact ih h.2

theorem read_put_other {m : Memory} {i j : Nat} {b : Byte} (hij : j ≠ i) :
    Memory.read (Memory.put m i b) j = Memory.read m j := by
  induction m with
  | nil =>
    simp only [Memory.put]
    split
    · rfl
    · simp [Memory.read, Ne.symm hij]
  | cons c m ih =>
    simp only [Memory.put]
    split
    · split
      · rfl
      · simp [Memory.read, Ne.symm hij]
    · split
      · rename_i heq
        have hcj : ¬ c.1 = j := by omega
        split
        · rw [Memory.read, if_neg hcj]
        · rw [Memory.read, if_neg (Ne.symm hij), Memory.read, if_neg hcj]
      · simp only [Memory.read]; rw [ih]

/-- A write keeps the canonical form. -/
theorem wf_write {m : Memory} (i : Nat) (b : Byte) (h : Memory.wf m = true) : Memory.wf (Memory.write m i b) = true := by
  unfold Memory.write
  split
  · rename_i hi; exact wfFrom_put h (Nat.zero_le _) hi
  · exact h

/-- A byte just written reads back. -/
theorem read_write_self {m : Memory} {i : Nat} (b : Byte) (h : Memory.wf m = true) (hi : i < 13) :
    Memory.read (Memory.write m i b) i = b := by
  unfold Memory.write
  rw [if_pos (show i < bufferSize from hi)]
  exact read_put_self h

/-- A write leaves every other byte alone. -/
theorem read_write_other (m : Memory) {i j : Nat} (b : Byte) (hij : j ≠ i) :
    Memory.read (Memory.write m i b) j = Memory.read m j := by
  unfold Memory.write
  split
  · exact read_put_other hij
  · rfl

/-- Reads after a write, in one equation for the simplifier. -/
theorem read_write {m : Memory} {i : Nat} (j : Nat) (b : Byte) (h : Memory.wf m = true) (hi : i < 13) :
    Memory.read (Memory.write m i b) j = if j = i then b else Memory.read m j := by
  split
  · rename_i e; rw [e]; exact read_write_self b h hi
  · rename_i e; exact read_write_other m b e

/-- A canonical list reads as unlisted outside the buffer. -/
theorem read_outside {m : Memory} {lo i : Nat} (h : Memory.wfFrom lo m = true) (hi : bufferSize ≤ i) :
    Memory.read m i = unlistedByte := by
  induction m generalizing lo with
  | nil => rfl
  | cons c m ih =>
    simp only [Memory.wfFrom, Bool.and_eq_true, decide_eq_true_eq] at h
    rw [Memory.read, if_neg (by omega)]
    exact ih h.2

theorem wfFrom_ext {m m' : Memory} {lo : Nat} (h : Memory.wfFrom lo m = true) (h' : Memory.wfFrom lo m' = true)
    (e : ∀ i, Memory.read m i = Memory.read m' i) : m = m' := by
  induction m generalizing m' lo with
  | nil =>
    cases m' with
    | nil => rfl
    | cons d m' =>
      simp only [Memory.wfFrom, Bool.and_eq_true, decide_eq_true_eq] at h'
      have := e d.1
      simp only [Memory.read, if_true] at this
      exact absurd this.symm h'.1.2.2
  | cons c m ih =>
    simp only [Memory.wfFrom, Bool.and_eq_true, decide_eq_true_eq] at h
    cases m' with
    | nil =>
      have := e c.1
      simp only [Memory.read, if_true] at this
      exact absurd this h.1.2.2
    | cons d m' =>
      simp only [Memory.wfFrom, Bool.and_eq_true, decide_eq_true_eq] at h'
      have hcd : c.1 = d.1 := by
        by_contra hne
        rcases Nat.lt_or_gt_of_ne hne with hlt | hgt
        · have := e c.1
          rw [Memory.read, if_pos rfl, Memory.read, if_neg (by omega), read_below h'.2 (by omega)] at this
          exact h.1.2.2 this
        · have := e d.1
          rw [Memory.read, if_neg hne, Memory.read, if_pos rfl, read_below h.2 (by omega)] at this
          exact h'.1.2.2 this.symm
      have hv : c.2 = d.2 := by
        have := e c.1
        rwa [Memory.read, if_pos rfl, Memory.read, if_pos hcd.symm] at this
      have hm : m = m' := by
        refine ih h.2 (hcd ▸ h'.2) fun i => ?_
        rcases Nat.lt_or_ge c.1 i with hi | hi
        · have := e i
          rwa [Memory.read, if_neg (by omega), Memory.read, if_neg (by omega)] at this
        · rw [read_below h.2 (by omega), read_below h'.2 (by omega)]
      rw [hm, Prod.ext hcd hv]

/-- Two canonical buffers with equal bytes are equal. -/
theorem memory_ext {m m' : Memory} (h : Memory.wf m = true) (h' : Memory.wf m' = true)
    (e : ∀ i, i < 13 → Memory.read m i = Memory.read m' i) : m = m' := by
  refine wfFrom_ext h h' fun i => ?_
  rcases Nat.lt_or_ge i 13 with hi | hi
  · exact e i hi
  · rw [read_outside h hi, read_outside h' hi]

/-- Writing bytes one after another keeps the canonical form. -/
theorem wf_foldl_write (f : Nat → Byte) (is : List Nat) {m : Memory} (h : Memory.wf m = true) :
    Memory.wf (is.foldl (fun m i => Memory.write m i (f i)) m) = true := by
  induction is generalizing m with
  | nil => exact h
  | cons i is ih => exact ih (wf_write i (f i) h)

theorem read_foldl_write_other (f : Nat → Byte) (is : List Nat) (m : Memory) {j : Nat} (hj : j ∉ is) :
    Memory.read (is.foldl (fun m i => Memory.write m i (f i)) m) j = Memory.read m j := by
  induction is generalizing m with
  | nil => rfl
  | cons i is ih =>
    simp only [List.mem_cons, not_or] at hj
    rw [List.foldl_cons, ih _ hj.2, read_write_other _ _ hj.1]

/-- Filling the first `n` bytes of a buffer. -/
theorem read_fill (f : Nat → Byte) {n j : Nat} {m : Memory} (h : Memory.wf m = true) (hn : n ≤ 13) (hj : j < n) :
    Memory.read ((List.range n).foldl (fun m i => Memory.write m i (f i)) m) j = f j := by
  induction n with
  | zero => omega
  | succ n ih =>
    rw [List.range_succ, List.foldl_append, List.foldl_cons, List.foldl_nil]
    rw [read_write _ _ (wf_foldl_write f _ h) (by omega)]
    split
    · rename_i e; rw [e]
    · exact ih (by omega) (by omega)

@[simp] theorem zeroFilled_eq : Memory.zeroFilled = [] := by decide

theorem wf_freeFilled (d : Nat) : Memory.wf (Memory.freeFilled d) = true :=
  wf_foldl_write (fun i => Config.freeValue 8 (d + i)) _ rfl

end Sys2Proof.Machine
end

