-- ==== Sys2Proof/Laws/Payload.lean ====
section
/-! SUPPORT. What BCDE and BUILD leave in the buffer, byte by byte (spec 43_bcd.md rule R90; 44_build.md rule R100). -/

namespace Sys2Proof.Machine

theorem digit_toNat (v : Nat) : (digit v).toNat = v % 10 := by
  simp only [digit, BitVec.toNat_ofNat]; omega

theorem sign_toNat (t : Word) : (bcdEncode t h).s.toNat = if t.toInt < 0 then 8 else 0 := by
  simp only [bcdEncode]; split <;> rfl

/-- Bit 3 of a nibble. -/
theorem nibble_bit3 (n : Nibble) : n.getLsbD 3 = decide (8 ≤ n.toNat) := by revert n; decide

theorem wf_storeBcd (n : BcdNibbles) {m : Memory} (hw : Memory.wf m = true) :
    Memory.wf (storeBcd n m) = true := by
  unfold storeBcd
  exact wf_write _ _ (wf_write _ _ (wf_write _ _ (wf_write _ _ hw)))

/-- Every byte after the data nibbles are stored. -/
theorem storeBcd_read (n : BcdNibbles) {m : Memory} (hw : Memory.wf m = true) (j : Nat) :
  Memory.read (storeBcd n m) j = if j = 10 then joinNibbles n.h1 0 else if j = 9 then joinNibbles n.s n.h0 else
    if j = 8 then joinNibbles n.d1 n.d2 else if j = 7 then joinNibbles (hi4 (Memory.read m 7)) n.d0 else Memory.read m j := by
  unfold storeBcd
  have w1 := wf_write 7 (joinNibbles (hi4 (Memory.read m 7)) n.d0) hw
  have w2 := wf_write 8 (joinNibbles n.d1 n.d2) w1
  have w3 := wf_write 9 (joinNibbles n.s n.h0) w2
  dsimp only
  rw [read_write j _ w3 (by omega), read_write j _ w2 (by omega), read_write j _ w1 (by omega), read_write j _ hw (by omega)]

/-- The data nibbles are where BCDD looks for them. -/
theorem nib_store (n : BcdNibbles) {m : Memory} (hw : Memory.wf m = true) :
    bcdNibblesOf (storeBcd n m) = n := by
  unfold bcdNibblesOf
  simp [storeBcd_read n hw]

theorem wf_buildFields (a b c d e f) : Memory.wf (buildFields a b c d e f) = true := by
  unfold buildFields
  dsimp only
  repeat apply wf_write
  decide

/-- Every byte after steps 1 to 7. -/
theorem read_buildFields (ty : Word) (ch ro : Byte) (ba : Nibble) (te : Word) (hu : Byte) (j : Nat) :
  Memory.read (buildFields ty ch ro ba te hu) j =
   if j = 10 then joinNibbles (bcdEncode te hu).h1 0 else
   if j = 9 then joinNibbles (bcdEncode te hu).s (bcdEncode te hu).h0 else
   if j = 8 then joinNibbles (bcdEncode te hu).d1 (bcdEncode te hu).d2 else
   if j = 7 then joinNibbles ba (bcdEncode te hu).d0 else
   if j = 6 then ro else
   if j = 5 then joinNibbles (ty.extractLsb' 0 4) (channelNibble ch) else
   if j = 4 then joinNibbles (ty.extractLsb' 8 4) (ty.extractLsb' 4 4) else
   if j = 3 then joinNibbles 0xA (ty.extractLsb' 12 4) else
   if j = 2 then 0xFF else if j = 1 then 0xFF else if j = 0 then 0xFF else 0 := by
  unfold buildFields
  dsimp only
  iterate 11 (rw [read_write j _ (by repeat (first | decide | apply wf_write)) (by omega)])
  rfl

/-- Every byte of the assembled payload. -/
theorem read_build (ty : Word) (ch ro : Byte) (ba : Nibble) (te : Word) (hu : Byte) (j : Nat) :
  Memory.read (build ty ch ro ba te hu) j = if j = 12 then crc8 (storeSum (buildFields ty ch ro ba te hu)) 15 else
   if j = 11 then simpleChecksum (buildFields ty ch ro ba te hu) 15 else Memory.read (buildFields ty ch ro ba te hu) j := by
  have w := wf_buildFields ty ch ro ba te hu
  unfold build
  rw [storeCrc, read_write j _ (show Memory.wf (storeSum _) = true from wf_write _ _ w) (by omega)]
  split
  · rfl
  · rw [storeSum, read_write j _ w (by omega)]

theorem wf_build (a b c d e f) : Memory.wf (build a b c d e f) = true := by
  unfold build storeCrc storeSum
  exact wf_write _ _ (wf_write _ _ (wf_buildFields ..))

end Sys2Proof.Machine
end

