-- ==== Sys2Proof/Laws/PerInstr.lean ====
section
/-! SUPPORT. Per command: its row of spec/opcode_table.json. -/

namespace Sys2Proof.Laws.TableRow

/-- The row's `wellformed_mask`: the bits that the row fixes, its "must be 0" fields among them (rules R49, R51). -/
def mask : Instr → Word
  | .ldb _ _ | .ldr _ _ => 0xF000
  | .rdb _ _ | .rdr _ _ => 0xF0FF
  | .sum8 _ _ | .crc8 _ _ => 0xFF00
  | .bcde _ _ | .bcdd _ _ | .build _ _ | .xmit _ _ => 0xFFFF

/-- The row's `match`. -/
def pattern : Instr → Word
  | .ldb _ _ => 0x1000
  | .rdb _ _ => 0x2000
  | .ldr _ _ => 0x3000
  | .rdr _ _ => 0x4000
  | .sum8 _ _ => 0x5000
  | .crc8 _ _ => 0x6000
  | .bcde _ _ => 0x7000
  | .bcdd _ _ => 0x8000
  | .build _ _ => 0x9000
  | .xmit _ _ => 0xA000

/-- The command's word agrees with its row's pattern in bits 15:12, and it breaks the row's "must be 0" fields exactly when the first
check it fails is `ErrReserved` (rules R49, R50, R51). -/
def Statement (i : Instr) : Prop :=
  encode i &&& 0xF000 = pattern i ∧ (encode i &&& mask i = pattern i ↔ i.illFormed ≠ some .reserved)

end Sys2Proof.Laws.TableRow

namespace Sys2Proof.Laws

/-- A word as its three fields side by side. -/
theorem TableRow.encode_append (i : Instr) : encode i = i.op ++ i.fieldA ++ i.fieldImm8 := by
  apply BitVec.eq_of_toNat_eq
  rw [encode_toNat, BitVec.toNat_append, BitVec.toNat_append]
  rw [← Nat.shiftLeft_add_eq_or_of_lt i.fieldA.isLt, ← Nat.shiftLeft_add_eq_or_of_lt i.fieldImm8.isLt]
  simp only [Nat.shiftLeft_eq]
  omega

theorem TableRow.append_inj {a b c d : Nibble} {x y : Byte} :
    a ++ c ++ x = b ++ d ++ y ↔ a = b ∧ c = d ∧ x = y := by
  constructor
  · intro h
    have e := congrArg BitVec.toNat h
    simp only [BitVec.toNat_append] at e
    rw [← Nat.shiftLeft_add_eq_or_of_lt c.isLt, ← Nat.shiftLeft_add_eq_or_of_lt x.isLt,
      ← Nat.shiftLeft_add_eq_or_of_lt d.isLt, ← Nat.shiftLeft_add_eq_or_of_lt y.isLt] at e
    simp only [Nat.shiftLeft_eq] at e
    have := c.isLt; have := d.isLt; have := x.isLt; have := y.isLt
    exact ⟨BitVec.eq_of_toNat_eq (by omega), BitVec.eq_of_toNat_eq (by omega), BitVec.eq_of_toNat_eq (by omega)⟩
  · rintro ⟨rfl, rfl, rfl⟩; rfl

/-- A word under a mask, field by field. -/
theorem TableRow.masked (i : Instr) (mo ma : Nibble) (mv : Byte) (po pa : Nibble) (pv : Byte) :
    encode i &&& (mo ++ ma ++ mv) = po ++ pa ++ pv ↔
      i.op &&& mo = po ∧ i.fieldA &&& ma = pa ∧ i.fieldImm8 &&& mv = pv := by
  rw [TableRow.encode_append, BitVec.and_append, BitVec.and_append, TableRow.append_inj]

theorem TableRow.and_ones4 (a : Nibble) : a &&& 0xF = a := BitVec.and_allOnes

theorem TableRow.and_ones8 (v : Byte) : v &&& 0xFF = v := BitVec.and_allOnes

theorem TableRow.pattern_eq (i : Instr) : TableRow.pattern i = i.op ++ (0 : Nibble) ++ (0 : Byte) := by
  cases i <;> simp only [TableRow.pattern, Instr.op] <;> decide

/-- The row's statement from its three fields: the masks of its operand fields, and what the first check says. -/
theorem TableRow.of_fields (i : Instr) (ma : Nibble) (mv : Byte) (hm : TableRow.mask i = (0xF : Nibble) ++ ma ++ mv)
    (hc : i.fieldA &&& ma = 0 ∧ i.fieldImm8 &&& mv = 0 ↔ i.illFormed ≠ some .reserved) : TableRow.Statement i := by
  have hp := TableRow.pattern_eq i
  have top : i.op &&& 0xF = i.op := TableRow.and_ones4 _
  constructor
  · rw [hp, show (0xF000 : Word) = (0xF : Nibble) ++ (0 : Nibble) ++ (0 : Byte) from rfl, TableRow.masked]
    exact ⟨top, BitVec.and_zero, BitVec.and_zero⟩
  · rw [hp, hm, TableRow.masked, ← hc]
    exact and_iff_right top

theorem TableRow.ldb : ∀ a imm8, TableRow.Statement (.ldb a imm8) := by
  intro a imm8
  refine TableRow.of_fields _ 0 0 (by simp only [TableRow.mask]; decide) ?_
  simp only [Instr.fieldA, Instr.fieldImm8, Instr.illFormed]
  grind

theorem TableRow.rdb : ∀ a imm8, TableRow.Statement (.rdb a imm8) := by
  intro a imm8
  refine TableRow.of_fields _ 0 0xFF (by simp only [TableRow.mask]; decide) ?_
  simp only [Instr.fieldA, Instr.fieldImm8, Instr.illFormed, TableRow.and_ones8]
  grind

theorem TableRow.ldr : ∀ a imm8, TableRow.Statement (.ldr a imm8) := by
  intro a imm8
  refine TableRow.of_fields _ 0 0 (by simp only [TableRow.mask]; decide) ?_
  simp only [Instr.fieldA, Instr.fieldImm8, Instr.illFormed]
  grind

theorem TableRow.rdr : ∀ a imm8, TableRow.Statement (.rdr a imm8) := by
  intro a imm8
  refine TableRow.of_fields _ 0 0xFF (by simp only [TableRow.mask]; decide) ?_
  simp only [Instr.fieldA, Instr.fieldImm8, Instr.illFormed, TableRow.and_ones8]
  grind

theorem TableRow.sum8 : ∀ a imm8, TableRow.Statement (.sum8 a imm8) := by
  intro a imm8
  refine TableRow.of_fields _ 0xF 0 (by simp only [TableRow.mask]; decide) ?_
  simp only [Instr.fieldA, Instr.fieldImm8, Instr.illFormed, TableRow.and_ones4]
  grind

theorem TableRow.crc8 : ∀ a imm8, TableRow.Statement (.crc8 a imm8) := by
  intro a imm8
  refine TableRow.of_fields _ 0xF 0 (by simp only [TableRow.mask]; decide) ?_
  simp only [Instr.fieldA, Instr.fieldImm8, Instr.illFormed, TableRow.and_ones4]
  grind

theorem TableRow.bcde : ∀ a imm8, TableRow.Statement (.bcde a imm8) := by
  intro a imm8
  refine TableRow.of_fields _ 0xF 0xFF (by simp only [TableRow.mask]; decide) ?_
  simp only [Instr.fieldA, Instr.fieldImm8, Instr.illFormed, TableRow.and_ones4, TableRow.and_ones8]
  grind

theorem TableRow.bcdd : ∀ a imm8, TableRow.Statement (.bcdd a imm8) := by
  intro a imm8
  refine TableRow.of_fields _ 0xF 0xFF (by simp only [TableRow.mask]; decide) ?_
  simp only [Instr.fieldA, Instr.fieldImm8, Instr.illFormed, TableRow.and_ones4, TableRow.and_ones8]
  grind

theorem TableRow.build : ∀ a imm8, TableRow.Statement (.build a imm8) := by
  intro a imm8
  refine TableRow.of_fields _ 0xF 0xFF (by simp only [TableRow.mask]; decide) ?_
  simp only [Instr.fieldA, Instr.fieldImm8, Instr.illFormed, TableRow.and_ones4, TableRow.and_ones8]
  grind

theorem TableRow.xmit : ∀ a imm8, TableRow.Statement (.xmit a imm8) := by
  intro a imm8
  refine TableRow.of_fields _ 0xF 0xFF (by simp only [TableRow.mask]; decide) ?_
  simp only [Instr.fieldA, Instr.fieldImm8, Instr.illFormed, TableRow.and_ones4, TableRow.and_ones8]
  grind

end Sys2Proof.Laws
end

