-- ==== Sys2Proof/Laws/RefHost.lean ====
section
/-! SUPPORT. The reference host's identity is fixed (spec 70_reset_and_hazards.md rules R174, R180): nothing the host does changes it. -/

namespace Sys2Proof.Machine

@[simp] theorem RefHost.init_identity (id : SensorIdentity) (r : SensorReading) : (RefHost.init id r).identity = id := rfl
@[simp] theorem RefHost.secondTick_identity (h : RefHost) : h.secondTick.identity = h.identity := rfl
@[simp] theorem RefHost.transmit_identity (time : Nat) (h : RefHost) : (h.transmit time).1.identity = h.identity := rfl

end Sys2Proof.Machine
end

