-- ==== Sys2Proof/Laws/Registers.lean ====
section
/-! SUPPORT. The register file: read after write, entry by entry (spec 10_state.md rule R12). -/

namespace Sys2Proof.Machine

@[simp] theorem highByte_setHighByte (v : Word) (b : Byte) : (setHighByte v b).extractLsb' 8 8 = b := by
  apply byte_ext; rw [highByte_toNat, setHighByte_toNat]; omega

@[simp] theorem lowByte_setHighByte (v : Word) (b : Byte) :
    (setHighByte v b).extractLsb' 0 8 = v.extractLsb' 0 8 := by
  apply byte_ext; rw [lowByte_toNat, setHighByte_toNat, lowByte_toNat]; omega

@[simp] theorem highByte_setLowByte (v : Word) (b : Byte) :
    (setLowByte v b).extractLsb' 8 8 = v.extractLsb' 8 8 := by
  apply byte_ext; rw [highByte_toNat, setLowByte_toNat, highByte_toNat]; have := b.isLt; omega

@[simp] theorem lowByte_setLowByte (v : Word) (b : Byte) : (setLowByte v b).extractLsb' 0 8 = b := by
  apply byte_ext; rw [lowByte_toNat, setLowByte_toNat]; have := b.isLt; omega

/-- An entry just written reads back; `BATT` does so for a byte LDR lets through. -/
theorem readReg_writeReg_self (a : Nibble) (v : Byte) (s : State) (h : a.toNat ≤ 7) (h4 : a.toNat = 4 → v.toNat ≤ 15) :
    readReg (writeReg a v s) a = v := by
  unfold readReg writeReg
  generalize a.toNat = k at h h4
  interval_cases k <;> simp only [highByte_setHighByte, lowByte_setLowByte]
  apply byte_ext
  have := h4 rfl
  rw [zext8_toNat, lo4_toNat]; omega

/-- Writing an entry leaves every other entry as it was. -/
theorem readReg_writeReg_other (a b : Nibble) (v : Byte) (s : State) (h : b.toNat ≤ 7) (hab : b ≠ a) :
    readReg (writeReg a v s) b = readReg s b := by
  have hne : b.toNat ≠ a.toNat := fun e => hab (nibble_ext e)
  have ha := a.isLt
  unfold readReg writeReg
  generalize a.toNat = j at hne ha
  generalize b.toNat = k at h hne
  interval_cases k <;> interval_cases j <;>
    first | rfl | (exfalso; omega) | simp only [lowByte_setHighByte, highByte_setLowByte]

end Sys2Proof.Machine
end

