-- ==== Sys2Proof/Laws/Run.lean ====
section
/-! SUPPORT. Runs of the host's interface, step by step. -/

namespace Sys2Proof.Machine

/-- A run of any machine begins with a step. -/
theorem core_run_succ (M : Host.Core) (n : Nat) {s t : M.State} (h : M.step s = .next t) :
    M.run (n + 1) s = M.run n t := by
  rw [Host.Core.run, h]

/-- A run of `n + k` steps is a run of `k` steps after one of `n`. -/
theorem core_run_add (M : Host.Core) (n k : Nat) {s t : M.State} (h : M.run n s = .next t) :
    M.run (n + k) s = M.run k t := by
  induction n generalizing s with
  | zero => cases h; rw [Nat.zero_add]
  | succ n ih =>
    rw [Nat.add_right_comm]
    rw [Host.Core.run] at h ⊢
    split at h
    · exact ih h
    · cases h
    · cases h

@[simp] theorem run_zero (s : State) : Host.Core.run Sys2Proof.core 0 s = .next s := rfl

theorem run_succ (n : Nat) {s t : State} (h : step s = .next t) :
    Host.Core.run Sys2Proof.core (n + 1) s = Host.Core.run Sys2Proof.core n t :=
  core_run_succ Sys2Proof.core n h

theorem run_add (n k : Nat) {s t : State} (h : Host.Core.run Sys2Proof.core n s = .next t) :
    Host.Core.run Sys2Proof.core (n + k) s = Host.Core.run Sys2Proof.core k t :=
  core_run_add Sys2Proof.core n k h

/-- A run ends with a step. -/
theorem run_last (n : Nat) {s t u : State} (h : Host.Core.run Sys2Proof.core n s = .next t) (hu : step t = .next u) :
    Host.Core.run Sys2Proof.core (n + 1) s = .next u :=
  (run_add n 1 h).trans (run_succ 0 hu)

end Sys2Proof.Machine
end

