-- ==== Sys2Proof/Laws/Schedule.lean ====
section
/-! SUPPORT. Where the encoder is `n` microseconds into a frame, and the level the waveform has there (spec 45_xmit.md rules R124 to R132). -/

namespace Sys2Proof.Machine

variable {w : Nat}

/-- The encoder's registers `n` microseconds into the frame of payload `m` that began at `N0`. -/
def sched (p : Params) (m : Memory) (N0 : BitVec w) (n : Nat) : Frame w :=
  if n < 208 * p.unitUs then
    let k := n / (2 * p.unitUs)
    { busy := true, tx := if n % (2 * p.unitUs) < p.firstUs (bitk m k) then bitk m k else !bitk m k, txk := BitVec.ofNat 7 k, next := addT N0 (micros w (2 * p.unitUs * (k + 1))) }
  else { busy := true, tx := false, txk := 104, next := addT N0 (micros w (209 * p.unitUs)) }

theorem unitUs_pos (p : Params) : 0 < p.unitUs := by have := p.zeroLow_pos; have := p.zeroLow_lt; omega

theorem firstUs_pos (p : Params) (b) : 0 < p.firstUs b := by
  cases b
  · exact p.zeroLow_pos
  · exact p.on_pos

theorem firstUs_lt (p : Params) (b) : p.firstUs b < 2 * p.unitUs := by
  cases b
  · exact p.zeroLow_lt
  · exact p.on_lt

theorem subT_micros (N0 : BitVec w) {a b : Nat} (h : b ≤ a) :
    subT (addT N0 (micros w a)) (addT N0 (micros w b)) = micros w (a - b) := by
  obtain ⟨c, rfl⟩ := Nat.exists_eq_add_of_le h
  simp only [subT, addT, micros, Nat.add_sub_cancel_left, BitVec.ofNat_add]
  rw [← BitVec.add_assoc, BitVec.add_comm (N0 + _), BitVec.add_sub_cancel]

theorem addT_micros (N0 : BitVec w) (a b : Nat) :
    addT (addT N0 (micros w a)) (micros w b) = addT N0 (micros w (a + b)) := by
  simp only [addT, micros, BitVec.ofNat_add, BitVec.add_assoc]

theorem subT_addT_micros (N0 : BitVec w) (a b : Nat) :
    subT (addT N0 (micros w (a + b))) (micros w b) = addT N0 (micros w a) := by
  simp only [subT, addT, micros, BitVec.ofNat_add]
  rw [← BitVec.add_assoc, BitVec.add_sub_cancel]

/-- A deadline ahead by less than half the range is not reached. -/
theorem not_reached_ahead (N0 : BitVec w) {a b : Nat} (h : b < a) (hl : a - b < 2 ^ (w-1)) :
    reached (addT N0 (micros w b)) (addT N0 (micros w a)) = false := by
  have hp : 2 ^ (w-1) ≤ 2 ^ w := Nat.pow_le_pow_right (by omega) (by omega)
  have e : (subT (addT N0 (micros w a)) (addT N0 (micros w b))).toNat = a - b := by
    rw [subT_micros N0 h.le, micros_toNat, Nat.mod_eq_of_lt (by omega)]
  apply not_reached_of_distance <;> rw [e] <;> omega

theorem txk_toNat {k : Nat} (h : k < 105) : (BitVec.ofNat 7 k).toNat = k := by
  rw [BitVec.toNat_ofNat]; omega

/-- The deadline in the first sub-interval of cell `k`. -/
theorem first_deadline (p : Params) (m : Memory) (N0 : BitVec w) {k : Nat} (hk : k < 104) (b : Bool) :
   Frame.deadline p m { busy := b, tx := bitk m k, txk := BitVec.ofNat 7 k, next := addT N0 (micros w (2 * p.unitUs * (k+1))) } = addT N0 (micros w (2 * p.unitUs * k + p.firstUs (bitk m k))) := by
  unfold Frame.deadline Frame.inFirst
  rw [txk_toNat (by omega)]
  simp only [frameBits, hk, decide_true, beq_self_eq_true, Bool.and_self, if_true]
  rw [Params.cellUs, Nat.mul_add, Nat.mul_one, subT_addT_micros, addT_micros]

theorem not_inFirst (m : Memory) {k : Nat} (hk : k < 104) (b : Bool) (nx : BitVec w) :
   Frame.inFirst m { busy := b, tx := !bitk m k, txk := BitVec.ofNat 7 k, next := nx } = false := by
  unfold Frame.inFirst
  rw [txk_toNat (by omega)]; simp

theorem frameEnd_le (p : Params) (m) : frameEnd p m ≤ 209 * p.unitUs := by
  unfold frameEnd; split <;> omega

theorem frameEnd_pos (p : Params) (m) :
    0 < frameEnd p m := by have := unitUs_pos p; unfold frameEnd; split <;> omega

/-- One microsecond inside the frame. -/
theorem settle_sched (p : Params) (m : Memory) (N0 : BitVec w) (hw : 209 * p.unitUs < 2 ^ (w - 1)) (n : Nat) (hn : n + 1 < frameEnd p m) :
    
   (sched p m N0 n).settle p m (addT N0 (micros w (n+1))) frameWaits = sched p m N0 (n+1) := by
  have hu := unitUs_pos p
  have hE := frameEnd_le p m
  have hE8 : bitk m 103 = true → n + 1 < 208 * p.unitUs := by
    intro h; unfold frameEnd at hn; rw [h] at hn; simpa using hn
  have hdm := Nat.div_add_mod n (2 * p.unitUs)
  have hml := Nat.mod_lt n (show 0 < 2 * p.unitUs by omega)
  by_cases h8 : n < 208 * p.unitUs
  · have hk : n / (2 * p.unitUs) < 104 := by rw [Nat.div_lt_iff_lt_mul (by omega)]; omega
    unfold sched
    rw [if_pos h8]
    dsimp only
    generalize hkk : n / (2 * p.unitUs) = k at *
    generalize hrr : n % (2 * p.unitUs) = r at *
    have fp := firstUs_pos p (bitk m k)
    have fl := firstUs_lt p (bitk m k)
    by_cases hlast : r + 1 = 2 * p.unitUs
    · -- end of the cell
      have hn1 : n + 1 = 2 * p.unitUs * (k + 1) := by rw [Nat.mul_add, Nat.mul_one]; omega
      rw [if_neg (show ¬ r < p.firstUs (bitk m k) by omega)]
      have nf := not_inFirst m hk true (addT N0 (micros w (2 * p.unitUs * (k + 1))))
      rw [show frameWaits = 208 + 1 from rfl, settle_advance _ _ _ _ rfl (by
        unfold Frame.deadline; rw [nf, if_neg (by simp)]; dsimp only; rw [hn1]; exact reached_self _)]
      have k104 : (BitVec.ofNat 7 k).toNat = k := txk_toNat (by omega)
      by_cases hk1 : k + 1 < 104
      · have lt8 : n + 1 < 208 * p.unitUs := by
          rw [hn1]; have := Nat.mul_le_mul_left (2 * p.unitUs) (show k+1 ≤ 103 by omega); omega
        have ek : (n+1) / (2 * p.unitUs) = k + 1 := by rw [hn1, Nat.mul_div_cancel_left _ (by omega)]
        have er : (n+1) % (2 * p.unitUs) = 0 := by rw [hn1, Nat.mul_mod_right]
        have fp' := firstUs_pos p (bitk m (k+1))
        have fl' := firstUs_lt p (bitk m (k+1))
        rw [if_pos lt8, ek, er, if_pos fp']
        have adv : Frame.advance p m { busy := true, tx := !bitk m k, txk := BitVec.ofNat 7 k, next := addT N0 (micros w (2 * p.unitUs * (k + 1))) } = { busy := true, tx := bitk m (k+1), txk := BitVec.ofNat 7 (k+1), next := addT N0 (micros w (2 * p.unitUs * (k + 1 + 1))) } := by
          unfold Frame.advance
          rw [nf, if_neg (by simp)]
          dsimp only
          rw [k104, if_pos (show k + 1 < frameBits from hk1)]
          unfold Frame.beginCell
          rw [addT_micros, Params.cellUs]; rfl
        rw [adv, settle_waiting]
        rw [first_deadline p m N0 hk1 true, hn1]
        exact not_reached_ahead N0 (by omega) (by omega)
      · have k103 : k = 103 := by omega
        subst k103
        have hb : bitk m 103 = false := by
          cases h : bitk m 103
          · rfl
          · have := hE8 h; omega
        rw [if_neg (by omega)]
        have adv : Frame.advance p m { busy := true, tx := !bitk m 103, txk := BitVec.ofNat 7 103, next := addT N0 (micros w (2 * p.unitUs * (103 + 1))) } = { busy := true, tx := false, txk := 104, next := addT N0 (micros w (209 * p.unitUs)) } := by
          unfold Frame.advance
          rw [nf, if_neg (by simp)]
          dsimp only
          rw [k104, if_neg (by decide), if_pos (by decide)]
          unfold Frame.afterLastCell
          rw [hb, if_neg (by simp)]
          dsimp only
          rw [addT_micros, show 2 * p.unitUs * (103+1) + p.unitUs = 209 * p.unitUs by omega]
        rw [adv, settle_waiting]
        unfold Frame.deadline
        rw [show Frame.inFirst m _ = false from rfl, if_neg (by simp)]
        exact not_reached_ahead N0 (by omega) (by omega)
    · have lt8 : n + 1 < 208 * p.unitUs := by
        have := Nat.mul_le_mul_left (2 * p.unitUs) (show k ≤ 103 by omega); omega
      have hn1 : n + 1 = 2 * p.unitUs * k + (r+1) := by omega
      have ek : (n+1) / (2 * p.unitUs) = k := by
        rw [hn1, Nat.mul_add_div (by omega), Nat.div_eq_of_lt (by omega), Nat.add_zero]
      have er : (n+1) % (2 * p.unitUs) = r + 1 := by rw [hn1, Nat.mul_add_mod, Nat.mod_eq_of_lt (by omega)]
      rw [if_pos lt8, ek, er]
      have hmul : 2 * p.unitUs * (k+1) = 2 * p.unitUs * k + 2 * p.unitUs := by ring
      have hb := Nat.mul_le_mul_left (2 * p.unitUs) (show k ≤ 103 by omega)
      by_cases h1 : r + 1 < p.firstUs (bitk m k)
      · rw [if_pos h1, if_pos (by omega), settle_waiting]
        rw [first_deadline p m N0 hk true, hn1]
        exact not_reached_ahead N0 (by omega) (by omega)
      · by_cases h2 : r < p.firstUs (bitk m k)
        · rw [if_pos h2, if_neg h1, show frameWaits = 208 + 1 from rfl, settle_advance _ _ _ _ rfl (by
            rw [first_deadline p m N0 hk true, hn1, show r + 1 = p.firstUs (bitk m k) by omega]; exact reached_self _)]
          have adv : Frame.advance p m { busy := true, tx := bitk m k, txk := BitVec.ofNat 7 k, next := addT N0 (micros w (2 * p.unitUs * (k + 1))) } = { busy := true, tx := !bitk m k, txk := BitVec.ofNat 7 k, next := addT N0 (micros w (2 * p.unitUs * (k + 1))) } := by
            unfold Frame.advance Frame.inFirst
            dsimp only
            rw [txk_toNat (by omega)]
            simp [frameBits, hk]
          rw [adv, settle_waiting]
          unfold Frame.deadline
          rw [not_inFirst m hk true, if_neg (by simp), hn1, hmul]
          exact not_reached_ahead N0 (by omega) (by omega)
        · rw [if_neg h2, if_neg h1, settle_waiting]
          unfold Frame.deadline
          rw [not_inFirst m hk true, if_neg (by simp), hn1, hmul]
          exact not_reached_ahead N0 (by omega) (by omega)
  · unfold sched
    rw [if_neg h8, if_neg (by omega), settle_waiting]
    unfold Frame.deadline
    rw [show Frame.inFirst m _ = false from rfl, if_neg (by simp)]
    exact not_reached_ahead N0 (by omega) (by omega)

/-- The last microsecond of the frame. -/
theorem settle_end (p : Params) (m : Memory) (N0 : BitVec w) (n : Nat) (hn : n + 1 = frameEnd p m) :
   ((sched p m N0 n).settle p m (addT N0 (micros w (n+1))) frameWaits).busy = false := by
  have hu := unitUs_pos p
  unfold frameEnd at hn
  cases hb : bitk m 103
  · simp only [hb] at hn
    simp at hn
    unfold sched
    rw [if_neg (by omega), show frameWaits = 208 + 1 from rfl, settle_advance _ _ _ _ rfl, settle_idle]
    · rfl
    · rfl
    · unfold Frame.deadline
      rw [show Frame.inFirst m _ = false from rfl, if_neg (by simp), hn]
      exact reached_self _
  · simp only [hb] at hn
    simp at hn
    have ek : n / (2 * p.unitUs) = 103 := by
      rw [show n = 2 * p.unitUs * 103 + (2 * p.unitUs - 1) by omega, Nat.mul_add_div (by omega), Nat.div_eq_of_lt (by omega)]
    have er : n % (2 * p.unitUs) = 2 * p.unitUs - 1 := by
      rw [show n = 2 * p.unitUs * 103 + (2 * p.unitUs - 1) by omega, Nat.mul_add_mod, Nat.mod_eq_of_lt (by omega)]
    unfold sched
    rw [if_pos (by omega)]
    dsimp only
    rw [ek, er, if_neg (by have := firstUs_lt p (bitk m 103); omega)]
    have nf := not_inFirst m (show 103 < 104 by omega) true (addT N0 (micros w (2 * p.unitUs * (103 + 1))))
    have adv : (Frame.advance p m { busy := true, tx := !bitk m 103, txk := BitVec.ofNat 7 103, next := addT N0 (micros w (2 * p.unitUs * (103 + 1))) }).busy = false := by
          unfold Frame.advance
          rw [nf, if_neg (by simp)]
          dsimp only
          rw [if_neg (by decide), if_pos (by decide)]
          unfold Frame.afterLastCell
          rw [hb]; rfl
    rw [show frameWaits = 208 + 1 from rfl, settle_advance _ _ _ _ rfl, settle_idle _ _ _ _ adv]
    · exact adv
    · unfold Frame.deadline
      rw [nf, if_neg (by simp)]
      rw [hn, show 2 * p.unitUs * (103+1) = 208 * p.unitUs by omega]; exact reached_self _

theorem sched_start (p : Params) (m : Memory) (N0 : BitVec w) : sched p m N0 0 = Frame.start p m N0 := by
  have hu := unitUs_pos p
  unfold sched Frame.start Frame.beginCell
  rw [if_pos (by omega)]
  simp [firstUs_pos p, Params.cellUs]

theorem levelAt_append (a b t) :
    levelAt (a ++ b) t = b.foldl (fun level e => if e.1 ≤ t then e.2 else level) (levelAt a t) := by
  unfold levelAt; rw [List.foldl_append]

theorem levelAt_cells (p : Params) (m : Memory) (t : Nat) (K : Nat) (hK : t < 2 * p.unitUs * K) :
   levelAt ((List.range K).flatMap (cellEvents p m)) t = (if t % (2 * p.unitUs) < p.firstUs (bitk m (t/(2*p.unitUs))) then bitk m (t/(2*p.unitUs)) else !bitk m (t/(2*p.unitUs))) := by
  have hu := unitUs_pos p
  have hdm := Nat.div_add_mod t (2 * p.unitUs)
  have hml := Nat.mod_lt t (show 0 < 2 * p.unitUs by omega)
  induction K with
  | zero => simp at hK
  | succ K ih =>
    rw [List.range_succ, List.flatMap_append, levelAt_append]
    have fp := firstUs_pos p (bitk m K)
    have fl := firstUs_lt p (bitk m K)
    simp only [List.flatMap_cons, List.flatMap_nil, List.append_nil, cellEvents, List.foldl_cons, List.foldl_nil, Params.cellUs]
    by_cases h : t < 2 * p.unitUs * K
    · rw [if_neg (by omega), if_neg (by omega)]; exact ih h
    · have ek : t / (2 * p.unitUs) = K := by
        apply Nat.le_antisymm
        · have := Nat.div_lt_of_lt_mul hK; omega
        · rw [Nat.le_div_iff_mul_le (by omega), Nat.mul_comm]; omega
      rw [ek] at hdm ⊢
      by_cases h2 : t % (2 * p.unitUs) < p.firstUs (bitk m K)
      · rw [if_neg (by omega), if_pos (by omega), if_pos h2]
      · rw [if_pos (by omega), if_neg h2]

/-- The waveform's level inside the frame is the line's. -/
theorem levelAt_wave (p : Params) (m : Memory) (N0 : BitVec w) (t : Nat) (h : t < frameEnd p m) :
    levelAt (wave p m) t = (sched p m N0 t).tx := by
  have hu := unitUs_pos p
  have := frameEnd_le p m
  unfold wave
  rw [levelAt_append, levelAt_append]
  simp only [List.foldl_cons, List.foldl_nil]
  rw [if_neg (by omega)]
  unfold sched
  by_cases h8 : t < 208 * p.unitUs
  · rw [if_pos h8]
    dsimp only
    rw [levelAt_cells p m t frameBits (by simp only [frameBits]; omega)]
    cases hb : bitk m 103
    · simp only [Bool.false_eq_true, if_false, List.foldl_cons, List.foldl_nil]
      rw [if_neg (by omega)]
    · rfl
  · rw [if_neg h8]
    unfold frameEnd at h
    cases hb : bitk m 103
    · simp; omega
    · simp [hb] at h; omega

theorem levelAt_wave_end (p : Params) (m : Memory) : levelAt (wave p m) (frameEnd p m) = false := by
  unfold wave
  rw [levelAt_append]
  simp

end Sys2Proof.Machine
end

