-- ==== Sys2Proof/Tests/Slice0.lean ====
section
/-! SUPPORT. Tests of the model. Expected values come from spec 95_test_vectors.md (V1 to V15, S6, P1) or from the rule named, never
from the model. Then, for every statement with hypotheses, a witness that meets them. -/

namespace Sys2Proof.Tests

open Sys2Proof Sys2Proof.Machine

/-- The golden payload (V1), as cells. -/
def golden : Memory :=
  [(0, 0xFF), (1, 0xFF), (2, 0xFF), (3, 0xAF), (4, 0x82), (5, 0x41), (7, 0x05), (8, 0x10), (9, 0x80), (10, 0x20), (11, 0xE2),
    (12, 0x73)]

/-- Thirteen bytes of FF (V6). -/
def allOnes : Memory := (List.range 13).map (fun i => (i, 0xFF))

/-- The bytes 7 to 10 of a buffer that is otherwise 0 (V9). -/
def dataBytes (b7 b8 b9 b10 : Byte) : Memory :=
  (((Memory.write [] 7 b7).write 8 b8).write 9 b9).write 10 b10

/-- The reset state with a buffer. -/
def withB (m : Memory) : State := { State.reset with mem := m }

/-- The outcome is a next state of which `p` holds. -/
def nextHas (o : Host.Outcome State Fault Refusal) (p : State → Bool) : Bool :=
  match o with
  | .next t => p t
  | .fault _ => false
  | .refused _ => false

/-- The parameters of V14. -/
def exampleParams : Params := { pulseShortenUs := 20 }

/-! ### Well-formedness: an ill-formed term for each check of rule R50, and the term at the edge that passes -/

theorem test_illFormed_reserved_imm8 : (Instr.rdb 3 1).illFormed = some .reserved := by decide
theorem test_illFormed_reserved_a : (Instr.sum8 1 15).illFormed = some .reserved := by decide
theorem test_illFormed_reserved_noOperands : (Instr.xmit 0 0xFF).wellFormed = false := by decide
theorem test_illFormed_index_byte : (Instr.ldb 13 0x55).illFormed = some .index := by decide
theorem test_illFormed_index_register : (Instr.ldr 8 0).illFormed = some .index := by decide
theorem test_illFormed_count_sum8 : (Instr.sum8 0 19).illFormed = some .count := by decide
theorem test_illFormed_count_crc8 : (Instr.crc8 0 20).illFormed = some .count := by decide
theorem test_illFormed_value : (Instr.ldr 4 0x10).illFormed = some .value := by decide
theorem test_illFormed_order : (Instr.rdb 14 1).illFormed = some .reserved ∧ (Instr.sum8 1 19).illFormed = some .reserved := by
  decide
theorem test_wellFormed_edges :
    ([.ldb 12 0xFF, .rdb 12 0, .ldr 7 0xFF, .ldr 4 0x0F, .rdr 7 0, .sum8 0 18, .crc8 0 19, .bcde 0 0, .bcdd 0 0, .build 0 0,
      .xmit 0 0] : List Instr).all Instr.wellFormed = true := by decide

/-! ### Decoding: words written bit by bit from rules R47 and R49 (opcode_table.json `encoding`): op, a, imm8 -/

theorem test_decode_ldb : decode 0b0001_0011_10101111 = .ok (.ldb 3 0xAF) := by decide
theorem test_decode_rdb : decode 0b0010_1011_00000000 = .ok (.rdb 11 0) := by decide
theorem test_decode_ldr : decode 0b0011_0101_11110001 = .ok (.ldr 5 0xF1) := by decide
theorem test_decode_rdr : decode 0b0100_0001_00000000 = .ok (.rdr 1 0) := by decide
theorem test_decode_sum8 : decode 0b0101_0000_00001111 = .ok (.sum8 0 15) := by decide
theorem test_decode_crc8 : decode 0b0110_0000_00010011 = .ok (.crc8 0 19) := by decide
theorem test_decode_bcde : decode 0b0111_0000_00000001 = .ok (.bcde 0 1) := by decide
theorem test_decode_bcdd : decode 0b1000_0001_00000000 = .ok (.bcdd 1 0) := by decide
theorem test_decode_build : decode 0b1001_0000_00000000 = .ok (.build 0 0) := by decide
theorem test_decode_xmit : decode 0b1010_0000_11111111 = .ok (.xmit 0 0xFF) := by decide
theorem test_decode_illegal :
    decode 0b0000_0000_00000000 = .error (.illegalOp 0) ∧ decode 0b1011_0001_00100011 = .error (.illegalOp 11) ∧
      decode 0b1111_1111_11111111 = .error (.illegalOp 15) := by decide
theorem test_encode_rule_R55 : encode (.ldr 4 0x0F) = 0x340F ∧ encode (.sum8 1 0x13) = 0x5113 := by decide

/-! ### One step of each command -/

/-- V11. -/
theorem test_ldb_stores :
    nextHas (step (State.reset.withFetchWord 16 0x13AF)) (fun t => t.mem == [(3, 0xAF)] && t.res == 0) = true := by decide
/-- V11. -/
theorem test_ldb_index_error : nextHas (step (State.reset.withFetchWord 16 0x1D55))
    (fun t => t.err && t.errcode == 3 && t.errcw == 0x1D55 && t.mem == []) = true := by decide
/-- V11. -/
theorem test_rdb_reads : nextHas (step ((withB golden).withFetchWord 16 0x2B00)) (fun t => t.res == 0xE2) = true := by decide
/-- V11: checked before the index. -/
theorem test_rdb_reserved_first :
    nextHas (step ((withB golden).withFetchWord 16 0x2E01)) (fun t => t.errcode == 2 && t.errcw == 0x2E01) = true := by decide
/-- V11: a torn value. -/
theorem test_ldr_half : nextHas (exec (.ldr 5 0x19) { State.reset with temp := 0xFFF1 }) (fun t => t.temp == 0xFF19) = true := by
  decide
/-- V11. -/
theorem test_ldr_value_error :
    nextHas (exec (.ldr 4 0x10) State.reset) (fun t => t.errcode == 6 && t.errcw == 0x3410 && t.batt == 0) = true := by decide
/-- V11, after reset. -/
theorem test_rdr_type : nextHas (exec (.rdr 0 0) State.reset) (fun t => t.res == 0xF8) = true ∧
    nextHas (exec (.rdr 1 0) State.reset) (fun t => t.res == 0x24) = true := by decide
/-- V11. -/
theorem test_rdr_reserved_first : nextHas (exec (.rdr 8 1) State.reset) (fun t => t.errcode == 2) = true := by decide
/-- V4, V5: the odd step adds the nibble that is there. -/
theorem test_sum8_finished : nextHas (exec (.sum8 0 15) (withB golden)) (fun t => t.res == 0xC3) = true := by decide
/-- V6: 270 mod 256, swapped. -/
theorem test_sum8_wraps : nextHas (exec (.sum8 0 17) (withB allOnes)) (fun t => t.res == 0xE0) = true := by decide
/-- V4. -/
theorem test_crc8_finished : nextHas (exec (.crc8 0 15) (withB golden)) (fun t => t.res == 0x73) = true := by decide +kernel
/-- V4: the longest window. -/
theorem test_crc8_longest : nextHas (exec (.crc8 0 19) (withB golden)) (fun t => t.res == 0x5A) = true := by decide +kernel
/-- V8: the battery nibble is kept, the sign is set. -/
theorem test_bcde_negative : nextHas (exec (.bcde 0 0) { withB [(7, 0x40)] with temp := 0xFC19, hum := 99 })
    (fun t => t.mem == [(7, 0x49), (8, 0x99), (9, 0x89), (10, 0x90)]) = true := by decide
/-- V8: -32768 and 255. -/
theorem test_bcde_extreme : nextHas (exec (.bcde 0 0) { State.reset with temp := 0x8000, hum := 255 })
    (fun t => t.mem == [(7, 0x08), (8, 0x67), (9, 0x85), (10, 0x50)]) = true := by decide
/-- V9: bits 2:0 of the sign nibble and the reserved nibble are ignored; minus zero is zero. -/
theorem test_bcdd_ignored : nextHas (exec (.bcdd 0 0) (withB (dataBytes 0x00 0x00 0xF0 0x2F)))
    (fun t => t.temp == 0 && t.hum == 0x14) = true := by decide
/-- V9. -/
theorem test_bcdd_bad_digit : nextHas (exec (.bcdd 0 0) { withB (dataBytes 0x05 0x1A 0x80 0x20) with temp := 7, hum := 8 })
    (fun t => t.errcode == 5 && t.errcw == 0x8000 && t.temp == 7 && t.hum == 8) = true := by decide
/-- V1. -/
theorem test_build_golden : nextHas (exec (.build 0 0) { State.reset with chan := 1, temp := 0xFFF1, hum := 20 })
    (fun t => t.mem == golden) = true := by decide +kernel
/-- V10, row 4: the channel saturates. -/
theorem test_build_saturates :
    nextHas (exec (.build 0 0) { State.reset with chan := 200, roll := 0xFE, batt := 4, temp := 0xFC19, hum := 99 })
      (fun t => t.mem == [(0, 0xFF), (1, 0xFF), (2, 0xFF), (3, 0xAF), (4, 0x82), (5, 0x4F), (6, 0xFE), (7, 0x49), (8, 0x99),
        (9, 0x89), (10, 0x90), (11, 0x28), (12, 0x33)]) = true := by decide +kernel
/-- Rule R123: the first bit of the golden payload is 1, so the line goes HIGH in the accepting step. -/
theorem test_xmit_starts : nextHas (step ((withB golden).withFetchWord 16 0xA000))
    (fun t => t.busy && t.tx && t.txk == 0 && !t.cmdReady && t.mem == golden) = true := by decide
/-- V12. -/
theorem test_xmit_reserved : nextHas (step ((withB golden).withFetchWord 16 0xA0FF))
    (fun t => t.errcode == 2 && !t.busy && !t.tx) = true := by decide
/-- V12. -/
theorem test_illegal_word : nextHas (step (State.reset.withFetchWord 16 0xB123))
    (fun t => t.err && t.errcode == 1 && t.errcw == 0xB123 && !t.cmdReady) = true := by decide
/-- V12: after an error a BUILD is not accepted. -/
theorem test_halted : nextHas (step (({ State.reset with err := true, errcode := 1 } : State).withFetchWord 16 0x9000))
    (fun t => t.mem == [] && t.err && t.host == [.hold 0x9000]) = true := by decide
/-- Rule R22: the values that `rst` leaves. -/
theorem test_rst : nextHas (step { State.reset with typeCode := 1, batt := 9, busy := true, tx := true, host := [.rst] })
    (fun t => t.typeCode == 0xF824 && t.batt == 0 && !t.busy && !t.tx) = true := by decide

/-! ### Parts -/

/-- V3: rows 7, 8 and 22, and the single rounds written out there. -/
theorem test_crc_rounds : crcAbsorb 0x00 0xF = 0xF0 ∧ crcAbsorb 0xF0 0x8 = 0xAD ∧ crcFlush 0x13 = 0x37 ∧ crcRound 0x80 = 0x07 ∧
    crcRound 0xFF = 0xF9 := by decide
/-- V2: the running sum before the swap. -/
theorem test_sum_register : sumRegister (golden.take 10) 15 = 0x2E ∧ sumSeed golden = 0x0F := by decide
/-- V13: the bits of `AF`, bytes 3 of the golden payload, and of `73`, byte 12. -/
theorem test_bit_order :
    (List.range 8).map (fun j => bitk golden (24 + j)) = [false, true, false, true, true, true, true, true] ∧
      (List.range 8).map (fun j => bitk golden (96 + j)) = [true, true, true, false, true, true, false, false] := by decide
/-- V14: `ON_US = 516`, `ZERO_LOW_US = 460`. -/
theorem test_wave_lengths : exampleParams.onUs = 516 ∧ exampleParams.zeroLowUs = 460 ∧ exampleParams.cellUs = 976 := by decide
/-- V14: cells 23, 24 and 103, and the end of the frame. -/
theorem test_wave_events :
    cellEvents exampleParams golden 23 = [(22448, true), (22964, false)] ∧
      cellEvents exampleParams golden 24 = [(23424, false), (23884, true)] ∧
      cellEvents exampleParams golden 103 = [(100528, false), (100988, true)] ∧
      frameEnd exampleParams golden = 101992 ∧ frameEnd exampleParams [(12, 0xEE)] = 101504 := by decide
/-- V14, V15: at `N0 + 516` the encoder drives the mid-cell edge of cell 0; a frame begun at 0xFFFF0000 waits in cell 67 for S_68. -/
theorem test_encoder_mid_cell :
    (Frame.settle exampleParams golden (0xFFFF0000 + 516 : BitVec 32) frameWaits
      (Frame.start exampleParams golden 0xFFFF0000)) = { busy := true, tx := false, txk := 0, next := 0xFFFF03D0 } := by decide
/-- V15: `S_67 = 0xFFFFFF70`, `S_68 = 0x00000340`. -/
theorem test_encoder_wraps :
    (Frame.beginCell exampleParams golden 67 { busy := true, tx := false, txk := 66, next := (0xFFFFFF70 : BitVec 32) }).next
      = 0x00000340 := by decide
/-- V15. -/
theorem test_timer : elapsed (0xFFFFFF00 : BitVec 32) 0x00000100 = 512 ∧ addT (0xFFFFFFF0 : BitVec 32) 976 = 0x000003C0 ∧
    reached (0x00000005 : BitVec 32) 0xFFFFFFF0 = true ∧ reached (0xFFFFFFF0 : BitVec 32) 0x00000005 = false ∧
    residualWait (0xFFFFFFF0 : BitVec 32) 0x00000005 = 21 := by decide
/-- S6. -/
theorem test_increment_policy : nextTemp 450 = 190 ∧ nextTemp 449 = 450 ∧ nextHum 95 = 30 ∧ nextHum 94 = 95 := by decide
/-- P1: the words of channel 1, rolling code 0, -1.5 degrees, 20 percent; type and battery are as reset left them. -/
theorem test_refhost_boot :
    (RefHost.init (SensorIdentity.start 1 0) { temp := 0xFFF1, hum := 20 }).boot
      = [.hold 0x3201, .hold 0x3300, .hold 0x35F1, .hold 0x36FF, .hold 0x3714] := by decide
/-- Rules R49, R55, R173: another type and a battery flag are written too, by LDR 0, 1 and 4. -/
theorem test_refhost_boot_changed :
    ({ typeCode := 0x1D20, channel := 3, rollingCode := 0xFE, batteryFlag := 4 } : SensorIdentity).load.map encode
      = [0x301D, 0x3120, 0x3203, 0x33FE, 0x3404] := by decide
/-- Rules R182, R183: BUILD, XMIT, then the words of the new reading, 190 and 30. -/
theorem test_refhost_transmit :
    (RefHost.transmit 7 (RefHost.init (SensorIdentity.start 1 5) { temp := 450, hum := 95 })).2
      = [.hold 0x9000, .hold 0xA000, .hold 0x35BE, .hold 0x3600, .hold 0x371E] := by decide
/-- P1: LDTEMP -15 is 0x35F1, 0x36FF. -/
theorem test_ldtemp_words : (Pseudo.ldtemp 0xFFF1).expand.map encode = [0x35F1, 0x36FF] := by decide

/-! ### Witnesses: the hypotheses of each statement that has some are met together -/

/-- A block transmitting the golden payload, in its accepting step. -/
def transmitting : State := (withB golden).setFrame (Frame.start Config.params golden (withB golden).now)

/-- A block halted by an error. -/
def halted : State := { State.reset with err := true, errcode := 1, errcw := 0xB123 }

theorem witness_EveryDecodedWordIsItsCommandsWord : decode 0x13AF = .ok (.ldb 3 0xAF) := by decide

theorem witness_WordsThatAreNoCommandRaiseAnError :
    let s : State := { State.reset with host := [.hold 0x2E01] }
    s.busy = false ∧ s.err = false ∧ s.host = [.hold 0x2E01] ∧ 1 ≤ (0x2E01 : Word).toNat / 4096 ∧
      (0x2E01 : Word).toNat / 4096 ≤ 10 ∧ (Instr.rdb 14 1).wellFormed = false ∧ decode 0x2E01 = .ok (.rdb 14 1) ∧
      (0x0FFF : Word).toNat / 4096 = 0 ∧ 11 ≤ (0xB000 : Word).toNat / 4096 := by decide

/-- The second clause at its two edges, `op` 1 and `op` 10. -/
theorem witness_WordsThatAreNoCommandRaiseAnError_edges :
    let s : State := { State.reset with host := [.hold 0x1D55] }
    let s' : State := { State.reset with host := [.offer 0xA0FF] }
    s.busy = false ∧ s.err = false ∧ s.host = [.hold 0x1D55] ∧ (0x1D55 : Word).toNat / 4096 = 1 ∧
      decode 0x1D55 = .ok (.ldb 13 0x55) ∧ (Instr.ldb 13 0x55).wellFormed = false ∧
      s'.busy = false ∧ s'.err = false ∧ s'.host = [.offer 0xA0FF] ∧ (0xA0FF : Word).toNat / 4096 = 10 ∧
      decode 0xA0FF = .ok (.xmit 0 0xFF) ∧ (Instr.xmit 0 0xFF).wellFormed = false := by decide

theorem witness_IllFormedCommandsReportTheFirstFailedCheck :
    (Instr.bcde 0 1).illFormed = some .reserved ∧ (Instr.rdb 13 0).illFormed = some .index ∧
      (Instr.rdr 8 0).illFormed = some .index ∧ (Instr.crc8 0 20).illFormed = some .count ∧
      (Instr.ldr 4 16).illFormed = some .value := by decide

theorem witness_WellFormedCommandsRaiseNoError :
    (Instr.crc8 0 19).wellFormed = true ∧ ∀ a imm8, Instr.crc8 0 19 ≠ .bcdd a imm8 := ⟨by decide, fun _ _ => Instr.noConfusion⟩

theorem witness_StepRunsTheDecodedCommand :
    let s : State := { State.reset with host := [.offer 0x9000, .idle] }
    s.busy = false ∧ s.err = false ∧ s.host = [.offer 0x9000, .idle] ∧ decode 0x9000 = .ok (.build 0 0) ∧
      decodeTableWord 16 0x9000 = some (.build 0 0) := by decide

theorem witness_UnacceptedWordHasNoEffect :
    transmitting.busy = true ∧ halted.err = true ∧
      ({ transmitting with host := [.hold 0x9000] } : State).host = [.hold 0x9000] ∧
      ({ halted with host := [.offer 0x9000] } : State).host = [.offer 0x9000] := ⟨rfl, rfl, rfl, rfl⟩

/-- A reset may come later, as it may in each statement about one step. -/
theorem witness_FrameInProgressKeepsPayloadAndRegisters :
    let s : State := { transmitting with host := [.idle, .rst] }
    s.busy = true ∧ s.noResetNext := ⟨rfl, by simp [State.noResetNext]⟩

theorem witness_ErrorHaltsTheBlockUntilReset : halted.err = true ∧ halted.busy = false ∧ halted.noReset :=
  ⟨rfl, rfl, List.not_mem_nil⟩

theorem witness_OnlyResetClearsAnError :
    let s : State := { halted with host := [.hold 0x9000, .rst] }
    s.err = true ∧ s.noResetNext := ⟨rfl, by simp [State.noResetNext]⟩

theorem witness_OnlyTimeMovesTheCounter :
    ({ State.reset with host := [.idle, .rst] } : State).noResetNext ∧
      step { State.reset with host := [.idle, .rst] } = .next (tick { State.reset with host := [.rst] }) ∧
      (State.reset.withFetchWord 16 0x3201).noResetNext ∧
      step (State.reset.withFetchWord 16 0x3201) = .next { State.reset with chan := 1 } ∧
      exec (.ldr 2 1) State.reset = .next { State.reset with chan := 1 } :=
  ⟨by simp [State.noResetNext], rfl, by simp [State.noResetNext, State.withFetchWord, presentWord], rfl, rfl⟩

theorem witness_ResetPinOverridesEverything :
    ({ transmitting with host := [.rst, .idle] } : State).host = [.rst, .idle] ∧
      ({ halted with host := [.rst] } : State).host = [.rst] := ⟨rfl, rfl⟩

theorem witness_PresentedCommandsRunToTheEnd :
    State.reset.busy = false ∧ State.reset.err = false ∧
      ∀ i ∈ ([.ldr 2 1, .build 0 0, .rdb 11 0] : List Instr),
        i.wellFormed = true ∧ (∀ a imm8, i ≠ .bcdd a imm8) ∧ (∀ a imm8, i ≠ .xmit a imm8) := by
  refine ⟨rfl, rfl, fun i hi => ?_⟩
  simp only [List.mem_cons, List.not_mem_nil, or_false] at hi
  rcases hi with rfl | rfl | rfl <;> exact ⟨by decide, fun _ _ => Instr.noConfusion, fun _ _ => Instr.noConfusion⟩

/-- A frame in progress meets the invariant too, so the premise is not about idle blocks only. -/
theorem witness_EveryStepKeepsTheBlockInvariant :
    transmitting.Inv ∧ transmitting.busy = true ∧ ∃ t, step transmitting = .next t := by
  refine ⟨⟨by decide, fun h => absurd h (by decide), ⟨fun _ => ⟨rfl, rfl⟩, fun h => absurd h (by decide)⟩, fun _ => ?_⟩, rfl, _, rfl⟩
  have h1 := firstUs_pos Config.params (bitk golden 0)
  have h2 := firstUs_lt Config.params (bitk golden 0)
  have h3 := Config.params.frame_fits
  have h4 : 2 ^ (Config.params.tw - 1) ≤ 2 ^ Config.params.tw := Nat.pow_le_pow_right (by omega) (by omega)
  have r : (subT transmitting.frame.next transmitting.now).toNat = 2 * Config.params.unitUs := by
    show (subT (addT (withB golden).now (micros _ Config.params.cellUs)) (withB golden).now).toNat = _
    rw [subT_addT, micros_toNat, Params.cellUs, Nat.mod_eq_of_lt (by omega)]
  left
  refine ⟨by decide, rfl, ?_, ?_⟩
  · rw [r]
    show Config.params.cellUs - Config.params.firstUs (bitk golden 0) < _
    rw [Params.cellUs]; omega
  · rw [r]; exact Nat.le_refl _

theorem witness_IdleLineIsLow :
    (State.reset.busy = false → State.reset.tx = false) ∧ step State.reset = .next (tick State.reset) ∧
      (tick State.reset).busy = false ∧ (Instr.bcde 0 0).op ≠ 10 ∧ exec (.bcde 0 0) State.reset = .next State.reset := by
  refine ⟨fun _ => rfl, rfl, ?_, by decide, rfl⟩
  rw [tick_idle rfl]; rfl

theorem witness_ElementsAreSetOnlyByTheirCommands :
    exec (.rdr 7 0) State.reset = .next State.reset ∧ (Instr.rdr 7 0).op ≠ 1 ∧ (Instr.rdr 7 0).op ≠ 3 ∧
      (Instr.rdr 7 0).op ≠ 7 ∧ (Instr.rdr 7 0).op ≠ 8 ∧ (Instr.rdr 7 0).op ≠ 9 ∧ (Instr.rdr 7 0).op ≠ 10 ∧
      exec (.bcde 0 0) State.reset = .next State.reset ∧ (Instr.bcde 0 0).op ≠ 2 ∧ (Instr.bcde 0 0).op ≠ 4 ∧
      (Instr.bcde 0 0).op ≠ 5 ∧ (Instr.bcde 0 0).op ≠ 6 ∧ (Instr.bcde 0 0).op ≠ 9 := by
  refine ⟨rfl, ?_, ?_, ?_, ?_, ?_, ?_, rfl, ?_, ?_, ?_, ?_, ?_⟩ <;> decide

theorem witness_LdbStoresOneByte :
    Memory.wf golden = true ∧ (12 : Nibble).toNat ≤ 12 ∧ 12 < (13 : Nibble).toNat := by decide

theorem witness_RdbReadsOneByte : (12 : Nibble).toNat ≤ 12 ∧ (1 : Byte) ≠ 0 ∧ 12 < (13 : Nibble).toNat := by decide

theorem witness_LdrWritesOneRegister : (15 : Byte).toNat ≤ 15 ∧ 15 < (16 : Byte).toNat ∧ 7 < (8 : Nibble).toNat := by decide

theorem witness_RdrReadsOneRegister : (1 : Byte) ≠ 0 ∧ 7 < (8 : Nibble).toNat := by decide

theorem witness_RegisterReadsBackWhatWasWritten :
    (4 : Nibble).toNat ≤ 7 ∧ ((4 : Nibble).toNat = 4 → (15 : Byte).toNat ≤ 15) ∧ (7 : Nibble).toNat ≤ 7 ∧
      (7 : Nibble) ≠ 4 := by decide

theorem witness_SixteenBitLoadsTakeTwoCommands : State.reset.busy = false ∧ State.reset.err = false := by decide

theorem witness_Sum8WritesTheChecksum : (18 : Byte).toNat ≤ 18 ∧ (1 : Nibble) ≠ 0 ∧ 18 < (19 : Byte).toNat := by decide

theorem witness_ChecksumIsTheSwappedSumOfItsWindow : 18 ≤ 18 ∧ 16 ≤ 16 := by decide

/-- Different buffers agree on the windows of `SUM8 18` (no odd step), of `SUM8 1` (nibbles 7 and 8 only: the other halves of their bytes
differ) and of `CRC8 19`. -/
theorem witness_ChecksumsReadOnlyTheirWindows :
    (∀ n, 7 ≤ n ∧ n ≤ 7 + 2 * (18 / 2) ∨ 18 % 2 = 1 ∧ n = 8 + 2 * (18 / 2) →
      nib golden n = nib (Memory.write golden 0 0) n) ∧
      (∀ n, 7 ≤ n ∧ n ≤ 7 + 2 * (1 / 2) ∨ 1 % 2 = 1 ∧ n = 8 + 2 * (1 / 2) →
        nib golden n = nib (dataBytes 0 0 0 0 |>.write 3 0x0F |>.write 4 0x8F) n) ∧
      (∀ n, 7 ≤ n → n ≤ 19 + 6 → nib golden n = nib (Memory.write golden 0 0) n) ∧ golden ≠ Memory.write golden 0 0 ∧
      nib golden 9 ≠ nib (dataBytes 0 0 0 0 |>.write 3 0x0F |>.write 4 0x8F) 9 := by
  have outside : ∀ n, 2 ≤ n → nib golden n = nib (Memory.write golden 0 0) n := fun n h => by
    unfold nib
    rw [read_write_other golden 0 (show n / 2 ≠ 0 by omega)]
  refine ⟨fun n h => outside n (by omega), fun n h => ?_, fun n h _ => outside n (by omega), by decide, by decide⟩
  obtain rfl | rfl : n = 7 ∨ n = 8 := by omega
  all_goals decide

theorem witness_Crc8WritesTheChecksum : (19 : Byte).toNat ≤ 19 ∧ (1 : Nibble) ≠ 0 ∧ 19 < (20 : Byte).toNat := by decide

/-- `B[3] = 0xA0` is not part of the window's first nibble. -/
theorem witness_ZeroWindowHasZeroCrc : ∀ n, 7 ≤ n → n ≤ 19 + 6 → nib [(3, 0xA0)] n = 0 := by
  intro n h1 h2
  have : n ≤ 25 := h2
  interval_cases n <;> decide

theorem witness_OneChangedNibbleChangesTheCrc :
    7 ≤ 7 ∧ 7 ≤ 1 + 6 ∧ nib [] 7 ≠ nib [(3, 0x01)] 7 ∧
      ∀ n, 7 ≤ n → n ≤ 1 + 6 → n ≠ 7 → nib [] n = nib [(3, 0x01)] n :=
  ⟨by decide, by decide, by decide, fun n h1 h2 h3 => by omega⟩

theorem witness_BcdeWritesTheDataNibbles : Memory.wf golden = true ∧ ((0 : Nibble) ≠ 0 ∨ (1 : Byte) ≠ 0) := by decide

/-- Nine is a digit, ten is none. -/
theorem witness_BcddReadsTheDataNibbles :
    (let b := fun j => (Memory.read (dataBytes 0x09 0x99 0x89 0x90) j).toNat
     ∀ d ∈ [b 7 % 16, b 8 / 16, b 8 % 16, b 9 % 16, b 10 / 16], d ≤ 9) ∧
    (let b := fun j => (Memory.read (dataBytes 0x05 0x10 0x80 0xA0) j).toNat
     ∃ d ∈ [b 7 % 16, b 8 / 16, b 8 % 16, b 9 % 16, b 10 / 16], 9 < d) ∧ ((1 : Nibble) ≠ 0 ∨ (0 : Byte) ≠ 0) := by decide

theorem witness_ReadingSurvivesEncodingAndDecoding :
    -999 ≤ (0xFC19 : Word).toInt ∧ (0xFC19 : Word).toInt ≤ 999 ∧ (99 : Byte).toNat ≤ 99 := by decide

theorem witness_DecodedDigitsEncodeBack :
    let n : BcdNibbles := { d0 := 9, d1 := 9, d2 := 9, s := 0xF, h0 := 9, h1 := 9 }
    n.d0.toNat ≤ 9 ∧ n.d1.toNat ≤ 9 ∧ n.d2.toNat ≤ 9 ∧ n.h0.toNat ≤ 9 ∧ n.h1.toNat ≤ 9 := by decide

theorem witness_BcddAfterBcdeRestoresTheReading :
    let s : State := { withB golden with temp := 999, hum := 99 }
    Memory.wf s.mem = true ∧ -999 ≤ s.temp.toInt ∧ s.temp.toInt ≤ 999 ∧ s.hum.toNat ≤ 99 := by decide

theorem witness_BuildAssemblesTheLayout : (0 : Nibble) ≠ 0 ∨ (1 : Byte) ≠ 0 := by decide

theorem witness_EqualReadingsBuildEqualPayloads :
    let s := withB golden
    let s' := State.reset
    s.typeCode = s'.typeCode ∧ s.chan = s'.chan ∧ s.roll = s'.roll ∧ s.batt = s'.batt ∧ s.temp = s'.temp ∧ s.hum = s'.hum ∧
      s.mem ≠ s'.mem := by decide

theorem witness_XmitStartsTheFrame : (0 : Nibble) ≠ 0 ∨ (0xFF : Byte) ≠ 0 := by decide

theorem witness_XmitTransmitsTheWaveform :
    (withB golden).noReset ∧ 0 ≤ frameEnd Config.params golden ∧
      frameEnd Config.params golden ≤ frameEnd Config.params golden :=
  ⟨List.not_mem_nil, Nat.zero_le _, Nat.le_refl _⟩

theorem witness_DeadlinesAreNeverRebased :
    (withB golden).noReset ∧ 208 * Config.params.unitUs - 1 < 208 * Config.params.unitUs :=
  ⟨List.not_mem_nil, by have := unitUs_pos Config.params; omega⟩

theorem witness_DecodedWaveformIsThePayload : Memory.wf golden = true := by decide

theorem witness_EncoderNeverLeavesACompletedWait :
    step ((withB golden).withFetchWord 16 0xA000) = .next transmitting ∧ transmitting.busy = true := ⟨rfl, rfl⟩

theorem witness_WaitingWordIsAcceptedWhenTheFrameEnds :
    let s : State := { withB golden with host := [.hold (encode (.xmit 0 0)), .hold (encode (.ldr 7 21))] }
    s.busy = false ∧ s.err = false ∧ s.host = .hold (encode (.xmit 0 0)) :: .hold (encode (.ldr 7 21)) :: [] ∧
      HostAct.rst ∉ ([] : List HostAct) := by decide

theorem witness_DeadlineTestIsExactWithinHalfTheRange :
    (0x7FFFFFFF : BitVec 32).toNat < 2 ^ (32 - 1) ∧ (0x7FFFFFFF : BitVec 32) ≠ 0 := by decide

end Sys2Proof.Tests
end

section
/-! The statements of 00_scope.md: what a command and a checksum do not read. -/

namespace Sys2Proof.Machine

/-! ### Each checksum reads only its window (rules R38, R76, R88) -/

/-- The seed and the whole bytes read nibbles 7 to `7 + 2*n` alone. -/
theorem sumBytes_congr {m m' : Memory} {n : Nat} (h : ∀ k, 7 ≤ k → k ≤ 7 + 2 * n → nib m k = nib m' k) :
    sumBytes m n = sumBytes m' n := by
  have window : (List.range (2 * n + 1)).map (fun j => (nib m (7 + j)).toNat)
      = (List.range (2 * n + 1)).map (fun j => (nib m' (7 + j)).toNat) :=
    List.map_congr_left fun j hj => by
      rw [List.mem_range] at hj
      rw [h (7 + j) (by omega) (by omega)]
  rw [sumBytes_eq, sumBytes_eq, window]

/-- The odd step's half byte is the nibble after the whole bytes (rules R38, R73). -/
theorem hi4_read_eq_nib (m : Memory) (n : Nat) : hi4 (Memory.read m (4 + n)) = nib m (8 + 2 * n) := by
  rw [nib, if_pos (by omega)]
  congr 2; omega

theorem simpleChecksum_congr {m m' : Memory} {count : Nat}
    (h : ∀ n, 7 ≤ n ∧ n ≤ 7 + 2 * (count / 2) ∨ count % 2 = 1 ∧ n = 8 + 2 * (count / 2) → nib m n = nib m' n) :
    simpleChecksum m count = simpleChecksum m' count := by
  have whole : sumBytes m (count / 2) = sumBytes m' (count / 2) :=
    sumBytes_congr fun k h1 h2 => h k (.inl ⟨h1, h2⟩)
  unfold simpleChecksum sumRegister
  split
  · next odd => rw [whole, hi4_read_eq_nib, hi4_read_eq_nib, h _ (.inr ⟨odd, rfl⟩)]
  · rw [whole]

theorem crc8_congr {m m' : Memory} {count : Nat} (h : ∀ n, 7 ≤ n → n ≤ count + 6 → nib m n = nib m' n) :
    crc8 m count = crc8 m' count := by
  rw [crc8, crc8, crcRegister_eq, crcRegister_eq]
  congr 2
  refine foldl_congr_mem _ _ _ _ fun c j hj => ?_
  rw [List.mem_range] at hj
  rw [h (7 + j) (by omega) (by omega)]

/-! ### No command reads the working registers (rules R16, R18, R19) -/

/-- The state with other values in `SUMR`, `CRCR`, `NEXT` and `TXK`. -/
def State.withWorking (s : State) (x y : Byte) (n : Time) (k : BitVec 7) : State :=
  { s with sumr := x, crcr := y, next := n, txk := k }

@[simp] theorem withWorking_mem (s : State) (x y : Byte) (n : Time) (k : BitVec 7) :
    (s.withWorking x y n k).mem = s.mem := rfl

/-- Both outcomes are next states, equal but for the working registers. -/
def SameButWorking (o o' : Host.Outcome State Fault Refusal) : Prop :=
  ∃ t u, o = .next t ∧ o' = .next u ∧ u.withWorking t.sumr t.crcr t.next t.txk = t

theorem SameButWorking.next {t u : State} (h : u.withWorking t.sumr t.crcr t.next t.txk = t) :
    SameButWorking (.next t) (.next u) :=
  ⟨t, u, rfl, rfl, h⟩

/-- A test that reads no working register goes the same way in both runs. -/
theorem SameButWorking.ite {c : Prop} [Decidable c] {o o' p p' : Host.Outcome State Fault Refusal}
    (h : SameButWorking o o') (h' : SameButWorking p p') :
    SameButWorking (if c then o else p) (if c then o' else p') := by
  split
  · exact h
  · exact h'

theorem writeReg_withWorking (a : Nibble) (v : Byte) (s : State) (x y : Byte) (n : Time) (k : BitVec 7) :
    writeReg a v (s.withWorking x y n k) = (writeReg a v s).withWorking x y n k := by
  unfold writeReg
  split <;> rfl

/-- An LDR that is not refused writes a register-file entry, and none of those is a working register. -/
theorem writeReg_sameButWorking (a : Nibble) (v : Byte) (s : State) (x y : Byte) (n : Time) (k : BitVec 7) :
    SameButWorking (.next (writeReg a v s)) (.next (writeReg a v (s.withWorking x y n k))) :=
  .next (by rw [writeReg_withWorking]; rfl)

/-- BCDD's digits, and whether they are decimal, come from the buffer. -/
theorem execBcdd_sameButWorking (a : Nibble) (v : Byte) (s : State) (x y : Byte) (n : Time) (k : BitVec 7) :
    SameButWorking (execBcdd a v s) (execBcdd a v (s.withWorking x y n k)) := by
  unfold execBcdd
  refine .ite (.next rfl) ?_
  rw [withWorking_mem]
  cases bcdDecode (bcdNibblesOf s.mem) with
  | none => exact .next rfl
  | some reading => exact .next rfl

/-- Test by test along each command's meaning: every refusal and every effect is the same but for the working registers. -/
theorem exec_sameButWorking (i : Instr) (s : State) (x y : Byte) (n : Time) (k : BitVec 7) :
    SameButWorking (exec i s) (exec i (s.withWorking x y n k)) := by
  cases i with
  | ldb a v => exact .ite (.next rfl) (.next rfl)
  | rdb a v => exact .ite (.next rfl) (.ite (.next rfl) (.next rfl))
  | ldr a v => exact .ite (.next rfl) (.ite (.next rfl) (writeReg_sameButWorking a v s x y n k))
  | rdr a v => exact .ite (.next rfl) (.ite (.next rfl) (.next rfl))
  | sum8 a v => exact .ite (.next rfl) (.ite (.next rfl) (.next rfl))
  | crc8 a v => exact .ite (.next rfl) (.ite (.next rfl) (.next rfl))
  | bcde a v => exact .ite (.next rfl) (.next rfl)
  | bcdd a v => exact execBcdd_sameButWorking a v s x y n k
  | build a v => exact .ite (.next rfl) (.next rfl)
  | xmit a v => exact .ite (.next rfl) (.next rfl)

end Sys2Proof.Machine

open Sys2Proof.Machine

/-- Settles O22: command by command, no test and no effect reads a working register. -/
theorem workingRegistersCarryNothingOver : Obligations.WorkingRegistersCarryNothingOver := by
  unfold Obligations.WorkingRegistersCarryNothingOver
  exact exec_sameButWorking

/-- Settles O31: the sum and the CRC loop read their nibbles through `nib`, inside the window. -/
theorem checksumsReadOnlyTheirWindows : Obligations.ChecksumsReadOnlyTheirWindows :=
  ⟨fun _ _ _ _ h => simpleChecksum_congr h, fun _ _ _ _ h => crc8_congr h⟩

end

section
/-! The statements of 10_state.md: what each command and each step may write, the registers, and the block's invariant. -/

namespace Sys2Proof.Machine

/-! ### What a command does -/

/-- What command `i` leaves of state `s` when it is not refused. -/
def CommandEffect (i : Instr) (s t : State) : Prop :=
  match i with
  | .ldb a v => t = { s with mem := Memory.write s.mem a.toNat v }
  | .rdb a _ => t = { s with res := Memory.read s.mem a.toNat }
  | .ldr a v => t = writeReg a v s
  | .rdr a _ => t = { s with res := readReg s a }
  | .sum8 _ v => t = ({ s with res := simpleChecksum s.mem v.toNat } : State).releaseSumr
  | .crc8 _ v => t = ({ s with res := crc8 s.mem v.toNat } : State).releaseCrcr
  | .bcde _ _ => t = { s with mem := storeBcd (bcdEncode s.temp s.hum) s.mem }
  | .bcdd _ _ =>
    ∃ temp hum, bcdDecode (bcdNibblesOf s.mem) = some (temp, hum) ∧ t = { s with temp := temp, hum := hum }
  | .build _ _ =>
    t = ({ s with mem := build s.typeCode s.chan s.roll s.batt s.temp s.hum } : State).releaseSumr.releaseCrcr
  | .xmit _ _ => t = s.setFrame (Frame.start Config.params s.mem s.now)

/-- A command is refused with an error entry or has its effect. -/
theorem exec_cases {i : Instr} {s t : State} (h : exec i s = .next t) : ErrorEntry i s t ∨ CommandEffect i s t := by
  cases i with
  | ldb a v => exact execLdb_cases h
  | rdb a v => exact execRdb_cases h
  | ldr a v => exact execLdr_cases h
  | rdr a v => exact execRdr_cases h
  | sum8 a v => exact execSum8_cases h
  | crc8 a v => exact execCrc8_cases h
  | bcde a v => exact execBcde_cases h
  | bcdd a v => exact execBcdd_cases h
  | build a v => exact execBuild_cases h
  | xmit a v => exact execXmit_cases h

@[simp] theorem writeReg_mem (a : Nibble) (v : Byte) (s : State) : (writeReg a v s).mem = s.mem := by rw [writeReg_keeps]
@[simp] theorem writeReg_res (a : Nibble) (v : Byte) (s : State) : (writeReg a v s).res = s.res := by rw [writeReg_keeps]
@[simp] theorem writeReg_busy (a : Nibble) (v : Byte) (s : State) : (writeReg a v s).busy = s.busy := by rw [writeReg_keeps]
@[simp] theorem writeReg_err (a : Nibble) (v : Byte) (s : State) : (writeReg a v s).err = s.err := by rw [writeReg_keeps]
@[simp] theorem writeReg_errcode (a : Nibble) (v : Byte) (s : State) : (writeReg a v s).errcode = s.errcode := by
  rw [writeReg_keeps]
@[simp] theorem writeReg_errcw (a : Nibble) (v : Byte) (s : State) : (writeReg a v s).errcw = s.errcw := by
  rw [writeReg_keeps]
@[simp] theorem writeReg_next (a : Nibble) (v : Byte) (s : State) : (writeReg a v s).next = s.next := by rw [writeReg_keeps]
@[simp] theorem writeReg_txk (a : Nibble) (v : Byte) (s : State) : (writeReg a v s).txk = s.txk := by rw [writeReg_keeps]
@[simp] theorem writeReg_tx (a : Nibble) (v : Byte) (s : State) : (writeReg a v s).tx = s.tx := by rw [writeReg_keeps]
@[simp] theorem writeReg_now (a : Nibble) (v : Byte) (s : State) : (writeReg a v s).now = s.now := by rw [writeReg_keeps]
@[simp] theorem writeReg_sumr (a : Nibble) (v : Byte) (s : State) : (writeReg a v s).sumr = s.sumr := by rw [writeReg_keeps]
@[simp] theorem writeReg_crcr (a : Nibble) (v : Byte) (s : State) : (writeReg a v s).crcr = s.crcr := by rw [writeReg_keeps]
@[simp] theorem writeReg_host (a : Nibble) (v : Byte) (s : State) : (writeReg a v s).host = s.host := by rw [writeReg_keeps]

/-- Column "set by" of rule R10: per element, the commands that may write it. -/
structure OnlySetBy (i : Instr) (s t : State) : Prop where
  mem : i.op ≠ 1 → i.op ≠ 7 → i.op ≠ 9 → t.mem = s.mem
  identity : i.op ≠ 3 → t.typeCode = s.typeCode ∧ t.chan = s.chan ∧ t.roll = s.roll ∧ t.batt = s.batt
  reading : i.op ≠ 3 → i.op ≠ 8 → t.temp = s.temp ∧ t.hum = s.hum
  res : i.op ≠ 2 → i.op ≠ 4 → i.op ≠ 5 → i.op ≠ 6 → t.res = s.res
  encoder : i.op ≠ 10 → t.busy = s.busy ∧ t.next = s.next ∧ t.txk = s.txk ∧ t.tx = s.tx
  sumr : i.op ≠ 5 → i.op ≠ 9 → t.sumr = s.sumr
  crcr : i.op ≠ 6 → i.op ≠ 9 → t.crcr = s.crcr

theorem CommandEffect.onlySetBy {i : Instr} {s t : State} (h : CommandEffect i s t) : OnlySetBy i s t := by
  cases i with
  | bcdd a v => obtain ⟨temp, hum, -, rfl⟩ := h; constructor <;> simp [Instr.op]
  | _ => cases h; constructor <;> simp [Instr.op]

theorem exec_onlySetBy {i : Instr} {s t : State} (h : exec i s = .next t) : OnlySetBy i s t := by
  rcases exec_cases h with ⟨e, rfl⟩ | effect
  · constructor <;> simp
  · exact effect.onlySetBy

/-- No effect writes the latch, `NOW` or the waiting inputs. -/
theorem CommandEffect.keeps {i : Instr} {s t : State} (h : CommandEffect i s t) :
    t.err = s.err ∧ t.errcode = s.errcode ∧ t.errcw = s.errcw ∧ t.now = s.now ∧ t.host = s.host := by
  cases i with
  | bcdd a v => obtain ⟨temp, hum, -, rfl⟩ := h; simp
  | _ => cases h; simp

theorem exec_now_host {i : Instr} {s t : State} (h : exec i s = .next t) : t.now = s.now ∧ t.host = s.host := by
  rcases exec_cases h with ⟨e, rfl⟩ | effect
  · exact ⟨rfl, rfl⟩
  · obtain ⟨-, -, -, now, host⟩ := effect.keeps
    exact ⟨now, host⟩

theorem accept_now_host {w : Word} {s t : State} (h : accept w s = .next t) : t.now = s.now ∧ t.host = s.host := by
  rcases accept_cases h with ⟨i, -, hi⟩ | rfl
  · exact exec_now_host hi
  · exact ⟨rfl, rfl⟩

theorem cmdReady_iff (s : State) : s.cmdReady = true ↔ s.busy = false ∧ s.err = false := by
  simp [State.cmdReady]

/-! ### LDR and RDR on the entries that exist -/

theorem exec_ldr_of_legal {a : Nibble} {v : Byte} (s : State) (ha : a.toNat ≤ 7) (hv : a.toNat = 4 → v.toNat ≤ 15) :
    exec (.ldr a v) s = .next (writeReg a v s) := by
  have upper : ¬(a.toNat = 4 ∧ hi4 v ≠ 0) := fun ⟨h4, h⟩ =>
    h (nibble_ext (by have := hv h4; rw [hi4_toNat]; show v.toNat / 16 = 0; omega))
  show execLdr a v s = _
  rw [execLdr, if_neg (by omega), if_neg upper]

theorem exec_rdr_of_legal {a : Nibble} (s : State) (ha : a.toNat ≤ 7) :
    exec (.rdr a 0) s = .next { s with res := readReg s a } := by
  show execRdr a 0 s = _
  rw [execRdr, if_neg (by simp), if_neg (by omega)]

/-! ### On schedule means somewhere on `sched` -/

section
variable {w : Nat} (p : Params) (m : Memory)

/-- The distance forward between two instants of one frame. -/
theorem subT_micros_toNat (N0 : BitVec w) {a b : Nat} (h : b ≤ a) (hl : a - b < 2 ^ w) :
    (subT (addT N0 (micros w a)) (addT N0 (micros w b))).toNat = a - b := by
  rw [subT_micros N0 h, micros_toNat, Nat.mod_eq_of_lt hl]

/-- The encoder's registers in cell `k`, by the microseconds `r` left of the cell. -/
theorem sched_cell (N0 : BitVec w) {k r : Nat} (hk : k < frameBits) (h0 : 0 < r) (hr : r ≤ p.cellUs) :
    sched p m N0 (p.cellUs * (k + 1) - r) =
      { busy := true, tx := if p.cellUs - r < p.firstUs (bitk m k) then bitk m k else !bitk m k
        txk := BitVec.ofNat 7 k, next := addT N0 (micros w (p.cellUs * (k + 1))) } := by
  have hu := unitUs_pos p
  rw [frameBits] at hk
  unfold Params.cellUs at *
  have hn : 2 * p.unitUs * (k + 1) - r = 2 * p.unitUs * k + (2 * p.unitUs - r) := by rw [Nat.mul_succ]; omega
  have inCells : 2 * p.unitUs * k + (2 * p.unitUs - r) < 208 * p.unitUs := by
    have := Nat.mul_le_mul_left (2 * p.unitUs) (show k ≤ 103 by omega)
    omega
  have cell : (2 * p.unitUs * k + (2 * p.unitUs - r)) / (2 * p.unitUs) = k := by
    rw [Nat.mul_add_div (by omega), Nat.div_eq_of_lt (by omega), Nat.add_zero]
  have offset : (2 * p.unitUs * k + (2 * p.unitUs - r)) % (2 * p.unitUs) = 2 * p.unitUs - r := by
    rw [Nat.mul_add_mod, Nat.mod_eq_of_lt (by omega)]
  rw [hn, sched, if_pos inCells]
  dsimp only
  rw [cell, offset]

theorem sched_trailer (N0 : BitVec w) {n : Nat} (hn : 208 * p.unitUs ≤ n) :
    sched p m N0 n = { busy := true, tx := false, txk := 104, next := addT N0 (micros w (209 * p.unitUs)) } := by
  rw [sched, if_neg (by omega)]

/-- Every microsecond of the cells lies in one cell, `r` microseconds before its end. -/
theorem exists_cell {n : Nat} (hn : n < 208 * p.unitUs) :
    ∃ k r, k < frameBits ∧ 0 < r ∧ r ≤ p.cellUs ∧ r ≤ p.cellUs * (k + 1) ∧ n = p.cellUs * (k + 1) - r := by
  have hu := unitUs_pos p
  have hd := Nat.div_add_mod n p.cellUs
  have hm := Nat.mod_lt n (show 0 < p.cellUs by unfold Params.cellUs; omega)
  have hs : p.cellUs * (n / p.cellUs + 1) = p.cellUs * (n / p.cellUs) + p.cellUs := Nat.mul_succ ..
  refine ⟨n / p.cellUs, p.cellUs - n % p.cellUs, ?_, by omega, by omega, by omega, by omega⟩
  rw [Nat.div_lt_iff_lt_mul (by omega)]
  simp only [frameBits, Params.cellUs]; omega

theorem cells_le_frameEnd : 208 * p.unitUs ≤ frameEnd p m := by
  unfold frameEnd; split <;> omega

/-- While the frame lasts, the encoder is on schedule. -/
theorem sched_onSchedule (hw : 209 * p.unitUs < 2 ^ (w - 1)) (N0 : BitVec w) {n : Nat} (hn : n < frameEnd p m) :
    (sched p m N0 n).onSchedule p m (addT N0 (micros w n)) := by
  have half : 2 ^ (w - 1) ≤ 2 ^ w := Nat.pow_le_pow_right (by omega) (by omega)
  have hE := frameEnd_le p m
  by_cases hc : n < 208 * p.unitUs
  · obtain ⟨k, r, hk, h0, hr, hle, rfl⟩ := exists_cell p hc
    have hfirst : p.firstUs (bitk m k) < p.cellUs := firstUs_lt p _
    have left : (subT (addT N0 (micros w (p.cellUs * (k + 1)))) (addT N0 (micros w (p.cellUs * (k + 1) - r)))).toNat = r := by
      rw [subT_micros_toNat N0 (by omega) (by unfold Params.cellUs at *; omega)]; omega
    rw [sched_cell p m N0 hk h0 hr]
    unfold Frame.onSchedule
    dsimp only
    rw [left, txk_toNat (by rw [frameBits] at hk; omega)]
    by_cases hf : p.cellUs - r < p.firstUs (bitk m k)
    · exact .inl ⟨hk, if_pos hf, by omega, hr⟩
    · exact .inr (.inl ⟨hk, if_neg hf, h0, by omega⟩)
  · have last : bitk m 103 = false := by
      by_contra hb
      rw [frameEnd, if_pos (Bool.not_eq_false _ ▸ hb)] at hn
      omega
    rw [sched_trailer p m N0 (by omega)]
    right; right
    dsimp only
    rw [subT_micros_toNat N0 (by omega) (by omega)]
    exact ⟨rfl, last, rfl, by omega, by omega⟩

/-- If `NEXT` is due `e` microseconds into the frame and still ahead, it and `NOW` are counted from one `N0`. -/
theorem exists_origin (next now : BitVec w) {e : Nat} (h : (subT next now).toNat ≤ e) :
    ∃ N0, next = addT N0 (micros w e) ∧ now = addT N0 (micros w (e - (subT next now).toNat)) := by
  have hm : micros w (subT next now).toNat = subT next now := (BitVec.ofNat_toNat ..).trans (BitVec.setWidth_eq _)
  refine ⟨subT next (micros w e), by simp [addT, subT], ?_⟩
  obtain ⟨d, rfl⟩ := Nat.exists_eq_add_of_le' h
  have hadd : micros w (d + (subT next now).toNat) = micros w d + subT next now := by
    rw [micros, BitVec.ofNat_add]
    exact congrArg _ hm
  rw [Nat.add_sub_cancel, hadd]
  simp only [addT, subT]
  ring

/-- In cell `TXK`, with the level of its sub-interval on the line, the encoder is on `sched`. -/
theorem exists_sched_of_cell {now : BitVec w} {f : Frame w} (hb : f.busy = true) (hk : f.txk.toNat < frameBits)
    (h0 : 0 < (subT f.next now).toNat) (hr : (subT f.next now).toNat ≤ p.cellUs)
    (ht : f.tx = if p.cellUs - (subT f.next now).toNat < p.firstUs (bitk m f.txk.toNat)
      then bitk m f.txk.toNat else !bitk m f.txk.toNat) :
    ∃ N0 n, n < frameEnd p m ∧ f = sched p m N0 n ∧ now = addT N0 (micros w n) := by
  have one : p.cellUs ≤ p.cellUs * (f.txk.toNat + 1) := Nat.le_mul_of_pos_right _ (by omega)
  have all : p.cellUs * (f.txk.toNat + 1) ≤ p.cellUs * 104 := Nat.mul_le_mul_left _ hk
  have hE := cells_le_frameEnd p m
  have hc : p.cellUs = 2 * p.unitUs := rfl
  obtain ⟨N0, hnext, hnow⟩ := exists_origin f.next now (hr.trans one)
  refine ⟨N0, _, by omega, ?_, hnow⟩
  rw [sched_cell p m N0 hk h0 hr, ← ht, ← hnext, ← hb, BitVec.ofNat_toNat, BitVec.setWidth_eq]

/-- A busy encoder that is on schedule is somewhere on `sched`. -/
theorem exists_sched_of_onSchedule {now : BitVec w} {f : Frame w} (hb : f.busy = true) (h : f.onSchedule p m now) :
    ∃ N0 n, n < frameEnd p m ∧ f = sched p m N0 n ∧ now = addT N0 (micros w n) := by
  have hfirst : p.firstUs (bitk m f.txk.toNat) < p.cellUs := firstUs_lt p _
  have hpos := firstUs_pos p (bitk m f.txk.toNat)
  rcases h with ⟨hk, ht, hlo, hhi⟩ | ⟨hk, ht, hlo, hhi⟩ | ⟨hk, hlast, ht, hlo, hhi⟩
  · exact exists_sched_of_cell p m hb hk (by omega) hhi (by rw [if_pos (by omega), ht])
  · exact exists_sched_of_cell p m hb hk hlo (by omega) (by rw [if_neg (by omega), ht])
  · have hE : frameEnd p m = 209 * p.unitUs := by rw [frameEnd, if_neg (by simp [hlast])]
    obtain ⟨N0, hnext, hnow⟩ := exists_origin f.next now (e := 209 * p.unitUs) (by omega)
    refine ⟨N0, _, by omega, ?_, hnow⟩
    have htxk : f.txk = 104 := BitVec.eq_of_toNat_eq hk
    rw [sched_trailer p m N0 (by omega), ← hnext, ← hb, ← ht, ← htxk]

end

/-! ### The encoder of the block, microsecond by microsecond -/

/-- Before the frame's last microsecond a tick moves the encoder one microsecond along `sched`. -/
theorem settledFrame_of_sched {s : State} {N0 : Time} {n : Nat} (hf : s.frame = sched Config.params s.mem N0 n)
    (hnow : s.now = addT N0 (micros Config.params.tw n)) (hn : n + 1 < frameEnd Config.params s.mem) :
    settledFrame s = sched Config.params s.mem N0 (n + 1) := by
  rw [settledFrame, hf, hnow, addT_micros]
  exact settle_sched Config.params s.mem N0 Config.params.frame_fits n hn

/-- The frame's last microsecond leaves the encoder idle. -/
theorem settledFrame_of_sched_last {s : State} {N0 : Time} {n : Nat} (hf : s.frame = sched Config.params s.mem N0 n)
    (hnow : s.now = addT N0 (micros Config.params.tw n)) (hn : n + 1 = frameEnd Config.params s.mem) :
    (settledFrame s).busy = false := by
  rw [settledFrame, hf, hnow, addT_micros]
  exact settle_end Config.params s.mem N0 n hn

@[simp] theorem sched_busy {w : Nat} (p : Params) (m : Memory) (N0 : BitVec w) (n : Nat) : (sched p m N0 n).busy = true := by
  unfold sched; split <;> rfl

/-- State `s` with a frame of its payload `n` microseconds old and the inputs `l` to come. -/
def State.inFrame (s : State) (n : Nat) (l : List HostAct) : State :=
  State.setFrame { s with now := addT s.now (micros Config.params.tw n), host := l } (sched Config.params s.mem s.now n)

/-- XMIT's accepting step is the frame's microsecond 0 (rule R123). -/
theorem setFrame_start (s : State) : s.setFrame (Frame.start Config.params s.mem s.now) = s.inFrame 0 s.host := by
  rw [State.inFrame, sched_start, show addT s.now (micros Config.params.tw 0) = s.now from BitVec.add_zero _]

theorem exec_xmit_inFrame (s : State) : exec (.xmit 0 0) s = .next (s.inFrame 0 s.host) := by
  show execXmit 0 0 s = _
  rw [execXmit, if_neg (by simp), setFrame_start]

/-- Before the frame's last microsecond a step without reset is one microsecond of it. -/
theorem step_inFrame (s : State) {n : Nat} {l : List HostAct} (hn : n + 1 < frameEnd Config.params s.mem)
    (hl : HostAct.rst ∉ l) :
    ∃ l', HostAct.rst ∉ l' ∧ step (s.inFrame n l) = .next (s.inFrame (n + 1) l') := by
  have notReady : (s.inFrame n l).cmdReady = false := by simp [State.cmdReady, State.inFrame]
  have noReset : (s.inFrame n l).noResetNext := by
    rintro rest (rfl : l = _)
    exact hl List.mem_cons_self
  obtain ⟨l', hl', hstep⟩ := step_not_ready notReady noReset
  have settled : settledFrame (s.inFrame n l') = sched Config.params s.mem s.now (n + 1) :=
    settledFrame_of_sched (s := s.inFrame n l') rfl rfl hn
  refine ⟨l', ?_, ?_⟩
  · rcases hl' with rfl | ⟨x, hx⟩
    · exact hl
    · exact fun h => hl ((show l = _ from hx) ▸ List.mem_cons_of_mem x h)
  · rw [hstep]
    show Host.Outcome.next (tick (s.inFrame n l')) = _
    rw [tick_of_busy (by rw [settled, sched_busy]), settled]
    simp only [State.inFrame, ← addT_micros]
    rfl

/-- `n` steps without reset into the frame, the block is `n` microseconds into it. -/
theorem run_inFrame (s : State) (hs : s.noReset) {n : Nat} (hn : n < frameEnd Config.params s.mem) :
    ∃ l, HostAct.rst ∉ l ∧ Host.Core.run Sys2Proof.core n (s.inFrame 0 s.host) = .next (s.inFrame n l) := by
  induction n with
  | zero => exact ⟨s.host, hs, rfl⟩
  | succ n ih =>
    obtain ⟨l, hl, hrun⟩ := ih (by omega)
    obtain ⟨l', hl', hstep⟩ := step_inFrame s hn hl
    exact ⟨l', hl', run_last n hrun hstep⟩

/-! ### Every step keeps the invariant -/

/-- An idle block has no frame to be off schedule. -/
theorem State.Inv.of_idle {t : State} (memory : Memory.wf t.mem = true) (latch : t.latchOk) (hb : t.busy = false)
    (hx : t.tx = false) : t.Inv :=
  ⟨memory, fun _ => hx, latch, fun h => by simp [hb] at h⟩

theorem ErrKind.code_bounds (e : ErrKind) : 1 ≤ e.code.toNat ∧ e.code.toNat ≤ 6 := by
  cases e <;> decide

theorem raise_inv {s : State} (hs : s.Inv) (hb : s.busy = false) (e : ErrKind) (cmd : Word) : (raise e cmd s).Inv := by
  obtain ⟨low, high⟩ := e.code_bounds
  exact .of_idle hs.memory ⟨fun h => by simp at h, fun _ => ⟨low, high, hb⟩⟩ hb (hs.idleLow hb)

theorem assertReset_inv (s : State) : (assertReset s).Inv :=
  .of_idle (by rw [assertReset_mem]; exact wf_freeFilled s.draws) ⟨fun _ => ⟨rfl, rfl⟩, fun h => by simp at h⟩ rfl rfl

/-- The invariant does not look at what the host does next. -/
theorem State.Inv.withHost {s : State} (hs : s.Inv) (l : List HostAct) : State.Inv { s with host := l } :=
  ⟨hs.memory, hs.idleLow, hs.latch, hs.frame⟩

theorem CommandEffect.wf_mem {i : Instr} {s t : State} (h : CommandEffect i s t) (hm : Memory.wf s.mem = true) :
    Memory.wf t.mem = true := by
  cases i with
  | ldb a v => cases h; exact wf_write _ _ hm
  | bcde a v => cases h; exact wf_storeBcd _ hm
  | build a v => cases h; exact wf_build ..
  | bcdd a v => obtain ⟨temp, hum, -, rfl⟩ := h; exact hm
  | _ => cases h; simpa using hm

/-- A frame begun by a block without error keeps the invariant at every microsecond of it. -/
theorem State.Inv.inFrame {s : State} (hs : s.Inv) (he : s.err = false) {n : Nat}
    (hn : n < frameEnd Config.params s.mem) (l : List HostAct) : (s.inFrame n l).Inv :=
  ⟨hs.memory, fun h => by simp [State.inFrame] at h, ⟨hs.latch.1, fun h => absurd (he.symm.trans h) (by simp)⟩,
    fun _ => sched_onSchedule Config.params s.mem Config.params.frame_fits s.now hn⟩

/-- A command other than XMIT leaves an idle block idle. -/
theorem CommandEffect.inv_of_not_xmit {i : Instr} {s t : State} (h : CommandEffect i s t) (hx : i.op ≠ 10) (hs : s.Inv)
    (hb : s.busy = false) : t.Inv := by
  obtain ⟨err, errcode, errcw, -, -⟩ := h.keeps
  obtain ⟨busy, -, -, tx⟩ := h.onlySetBy.encoder hx
  have latch : t.latchOk := by
    unfold State.latchOk
    rw [err, errcode, errcw, busy]
    exact hs.latch
  exact .of_idle (h.wf_mem hs.memory) latch (busy.trans hb) (tx.trans (hs.idleLow hb))

theorem CommandEffect.inv {i : Instr} {s t : State} (h : CommandEffect i s t) (hs : s.Inv) (hb : s.busy = false)
    (he : s.err = false) : t.Inv := by
  cases i with
  | xmit a v =>
    cases h
    rw [setFrame_start]
    exact hs.inFrame he (frameEnd_pos Config.params s.mem) s.host
  | _ => exact h.inv_of_not_xmit (by simp [Instr.op]) hs hb

theorem exec_inv {i : Instr} {s t : State} (hs : s.Inv) (hr : s.cmdReady = true) (h : exec i s = .next t) : t.Inv := by
  obtain ⟨hb, he⟩ := (cmdReady_iff s).mp hr
  rcases exec_cases h with ⟨e, rfl⟩ | effect
  · exact raise_inv hs hb e _
  · exact effect.inv hs hb he

theorem accept_inv {w : Word} {s t : State} (hs : s.Inv) (hr : s.cmdReady = true) (h : accept w s = .next t) : t.Inv := by
  rcases accept_cases h with ⟨i, -, hi⟩ | rfl
  · exact exec_inv hs hr hi
  · exact raise_inv hs ((cmdReady_iff s).mp hr).1 .illegal w

theorem settledFrame_of_idle {s : State} (hb : s.busy = false) : settledFrame s = s.frame :=
  settle_idle _ _ _ _ hb

theorem tick_latchOk {s : State} (hs : s.latchOk) : (tick s).latchOk := by
  obtain ⟨clear, set⟩ := hs
  refine ⟨by simpa using clear, fun h => ?_⟩
  obtain ⟨low, high, hb⟩ := set (by simpa using h)
  simpa [settledFrame_of_idle hb] using ⟨low, high, hb⟩

/-- On schedule the encoder moves along `sched`, to the next microsecond or to the frame's end. -/
theorem tick_frameOk {s : State} (hs : s.frameOk) : (tick s).frameOk := by
  intro hbusy
  rw [tick_busy] at hbusy
  have hb : s.busy = true := by
    by_contra hb
    rw [settledFrame_of_idle (Bool.not_eq_true _ ▸ hb)] at hbusy
    exact hb hbusy
  obtain ⟨N0, n, hn, hf, hnow⟩ := exists_sched_of_onSchedule Config.params s.mem (f := s.frame) hb (hs hb)
  have more : n + 1 < frameEnd Config.params s.mem := by
    by_contra hlast
    have := settledFrame_of_sched_last hf hnow (by omega)
    simp [this] at hbusy
  rw [tick_of_busy hbusy, settledFrame_of_sched hf hnow more, frame_setFrame, setFrame_mem, setFrame_now,
    countMicrosecond_mem, countMicrosecond_now, hnow, addT_micros]
  exact sched_onSchedule Config.params s.mem Config.params.frame_fits N0 more

theorem tick_inv {s : State} (hs : s.Inv) : (tick s).Inv where
  memory := by rw [tick_mem]; exact hs.memory
  idleLow := by
    unfold State.idleLow
    rw [tick_busy, tick_tx]
    exact settle_idle_low Config.params s.mem _ _ s.frame hs.idleLow
  latch := tick_latchOk hs.latch
  frame := tick_frameOk hs.frame

end Sys2Proof.Machine

open Sys2Proof Sys2Proof.Machine

/-- Settles O19: a reset establishes the invariant, and a tick and an accepted command keep it. -/
theorem everyStepKeepsTheBlockInvariant : Obligations.EveryStepKeepsTheBlockInvariant := by
  intro s t hs h
  rcases step_cases h with ⟨rest, -, rfl⟩ | ⟨-, rest, -, rfl⟩ | ⟨w, rest, -, ready, haccept⟩
  · exact assertReset_inv _
  · exact tick_inv (hs.withHost rest)
  · exact accept_inv (hs.withHost rest) ready haccept

/-- Settles O11: a block with `ERR = 1` is not ready, so without reset it ticks, and a tick keeps the latch. -/
theorem onlyResetClearsAnError : Obligations.OnlyResetClearsAnError := by
  intro s he hn
  obtain ⟨rest, -, hstep⟩ := step_not_ready (by simp [State.cmdReady, he]) hn
  exact ⟨_, hstep, by simpa using he, by simp, by simp⟩

/-- Settles O13: a step without reset is a tick, which counts, or an acceptance, which keeps `NOW` and the inputs left. -/
theorem onlyTimeMovesTheCounter : Obligations.OnlyTimeMovesTheCounter := by
  refine ⟨fun s t hn h => ?_, fun _ _ _ h => (exec_now_host h).1⟩
  rcases step_cases h with ⟨rest, hrst, -⟩ | ⟨-, rest, -, rfl⟩ | ⟨w, rest, hw, ready, haccept⟩
  · exact absurd hrst (hn rest)
  · exact .inl (tick_now _)
  · obtain ⟨hb, he⟩ := (cmdReady_iff s).mp ready
    obtain ⟨now, host⟩ := accept_now_host haccept
    exact .inr ⟨now, hb, he, w, rest, hw, host⟩

/-- Settles O21: an error entry writes none of the elements, and each effect only its own. -/
theorem elementsAreSetOnlyByTheirCommands : Obligations.ElementsAreSetOnlyByTheirCommands := by
  intro i s t h
  obtain ⟨mem, identity, reading, res, encoder, sumr, crcr⟩ := exec_onlySetBy h
  exact ⟨mem, identity, reading, res, encoder, sumr, crcr, (exec_now_host h).2⟩

/-- Settles O27: both commands complete on the entries that exist, so it is read after write of the register file. -/
theorem registerReadsBackWhatWasWritten : Obligations.RegisterReadsBackWhatWasWritten := by
  intro a v s ha hv
  refine ⟨_, exec_ldr_of_legal s ha hv, ⟨_, exec_rdr_of_legal _ ha, readReg_writeReg_self a v s ha hv⟩, fun b hb hba => ?_⟩
  exact ⟨_, _, exec_rdr_of_legal _ hb, exec_rdr_of_legal s hb, readReg_writeReg_other a b v s hb hba⟩

/-- Settles O46: inside the cells `sched` has `TXK` and `NEXT` as stated. -/
theorem deadlinesAreNeverRebased : Obligations.DeadlinesAreNeverRebased := by
  intro s n hs hn
  have hE := cells_le_frameEnd Config.params s.mem
  obtain ⟨l, -, hrun⟩ := run_inFrame s hs (n := n) (by omega)
  have cell : n / (2 * Config.params.unitUs) < 104 := by
    have := unitUs_pos Config.params
    rw [Nat.div_lt_iff_lt_mul (by omega)]; omega
  refine ⟨_, _, exec_xmit_inFrame s, hrun, ?_⟩
  rw [State.inFrame, setFrame_txk, setFrame_next, sched, if_pos hn]
  exact ⟨txk_toNat (by omega), rfl⟩

/-- Settles O15: the reset state as the model writes it out. -/
theorem resetHasTheStatedValues : Obligations.ResetHasTheStatedValues :=
  ⟨rfl, rfl, rfl, rfl, rfl, rfl, rfl, rfl⟩

/-- Settles O18: reset leaves an empty cell list, which is canonical, and an idle block without error. -/
theorem resetMeetsTheBlockInvariant : Obligations.ResetMeetsTheBlockInvariant :=
  .of_idle rfl ⟨fun _ => ⟨rfl, rfl⟩, fun h => absurd h (by decide)⟩ rfl rfl

end

section
/-! The statements of 20_memory.md: sequences of commands, the checksum's window, the payload's layout, its bits and its waveform. -/

namespace Sys2Proof.Machine

/-! ### Well-formed commands, presented one after another (rules R39, R45) -/

theorem ite_some_eq_none {c : Prop} [Decidable c] {e : IllFormed} {o : Option IllFormed} :
    (if c then some e else o) = none ↔ ¬c ∧ o = none := by
  split <;> simp_all

/-- A well-formed command is not refused; BCDD alone has a check of its own besides (rule R50). -/
theorem exec_of_wellFormed {i : Instr} (s : State) (hw : i.wellFormed = true) (hd : ∀ a v, i ≠ .bcdd a v) :
    ∃ t, exec i s = .next t ∧ CommandEffect i s t := by
  have legal : i.illFormed = none := Option.isNone_iff_eq_none.mp hw
  cases i <;> simp only [Instr.illFormed, ite_some_eq_none] at legal
  case ldb a v => exact ⟨_, if_neg legal.1, rfl⟩
  case rdb a v =>
    obtain ⟨reserved, index, -⟩ := legal
    exact ⟨_, (if_neg reserved).trans (if_neg index), rfl⟩
  case ldr a v =>
    obtain ⟨index, value, -⟩ := legal
    exact ⟨_, exec_ldr_of_legal s (by omega) (by omega), rfl⟩
  case rdr a v =>
    obtain ⟨reserved, index, -⟩ := legal
    exact ⟨_, (if_neg reserved).trans (if_neg index), rfl⟩
  case sum8 a v =>
    obtain ⟨reserved, count, -⟩ := legal
    exact ⟨_, (if_neg reserved).trans (if_neg count), rfl⟩
  case crc8 a v =>
    obtain ⟨reserved, count, -⟩ := legal
    exact ⟨_, (if_neg reserved).trans (if_neg count), rfl⟩
  case bcde a v => exact ⟨_, if_neg legal.1, rfl⟩
  case bcdd a v => exact absurd rfl (hd a v)
  case build a v => exact ⟨_, if_neg legal.1, rfl⟩
  case xmit a v => exact ⟨_, if_neg legal.1, rfl⟩

/-- Rules R49, R55: every command is what its own word decodes to. -/
@[simp] theorem decode_encode (i : Instr) : decode (encode i) = .ok i := by
  rw [decode, wordOp_encode, wordA_encode, wordImm8_encode]
  cases i <;> rfl

/-- A ready block accepts the command that is held at the port (rule R45). -/
theorem step_hold_of_ready {s : State} {i : Instr} {rest : List HostAct} (hr : s.cmdReady = true)
    (hh : s.host = .hold (encode i) :: rest) : step s = exec i { s with host := rest } := by
  unfold step portStep
  rw [hh]
  simp only [hr, if_true, accept, decode_encode]

/-- The commands after which a ready block is ready again, whatever it holds. -/
def KeepsReady (i : Instr) : Prop :=
  i.wellFormed = true ∧ (∀ a imm8, i ≠ .bcdd a imm8) ∧ (∀ a imm8, i ≠ .xmit a imm8)

theorem op_ne_ten_of_not_xmit {i : Instr} (h : ∀ a v, i ≠ .xmit a v) : i.op ≠ 10 := by
  cases i with
  | xmit a v => exact absurd rfl (h a v)
  | _ => simp [Instr.op]

/-- Such a command, held at the port of a ready block, is accepted and leaves the block ready. -/
theorem step_hold_keepsReady {s : State} {i : Instr} {rest : List HostAct} (hi : KeepsReady i) (hr : s.cmdReady = true)
    (hh : s.host = .hold (encode i) :: rest) : ∃ t, step s = .next t ∧ t.host = rest ∧ t.cmdReady = true := by
  obtain ⟨wellFormed, notBcdd, notXmit⟩ := hi
  obtain ⟨hb, he⟩ := (cmdReady_iff s).mp hr
  obtain ⟨t, ht, effect⟩ := exec_of_wellFormed { s with host := rest } wellFormed notBcdd
  obtain ⟨err, -, -, -, host⟩ := effect.keeps
  obtain ⟨busy, -⟩ := effect.onlySetBy.encoder (op_ne_ten_of_not_xmit notXmit)
  exact ⟨t, (step_hold_of_ready hr hh).trans ht, host, (cmdReady_iff t).mpr ⟨busy.trans hb, err.trans he⟩⟩

theorem run_present {is : List Instr} (his : ∀ i ∈ is, KeepsReady i) {s : State} (hr : s.cmdReady = true)
    (hh : s.host = present is) :
    ∃ t, Host.Core.run Sys2Proof.core is.length s = .next t ∧ t.host = [] ∧ t.cmdReady = true := by
  induction is generalizing s with
  | nil => exact ⟨s, rfl, hh, hr⟩
  | cons i is ih =>
    obtain ⟨head, tail⟩ := List.forall_mem_cons.mp his
    obtain ⟨t, hstep, host, ready⟩ := step_hold_keepsReady head hr hh
    obtain ⟨u, hrun, done⟩ := ih tail ready host
    exact ⟨u, (run_succ is.length hstep).trans hrun, done⟩

/-! ### The simple checksum as a sum over its window (rules R38, R70 to R74) -/

/-- The window of rule R38: the seed's nibble, those of the whole bytes, and the odd step's. -/
def sumWindow (count : Nat) : List Nat :=
  (List.range (2 * (count / 2) + 1)).map (fun j => 7 + j) ++ (if count % 2 = 1 then [8 + 2 * (count / 2)] else [])

/-- The nibbles of the window, added as numbers. -/
def sumTotal (m : Memory) (count : Nat) : Nat := ((sumWindow count).map (fun n => (nib m n).toNat)).sum

theorem length_sumWindow (count : Nat) : (sumWindow count).length = count + 1 := by
  unfold sumWindow
  split <;> simp <;> omega

theorem le_of_mem_sumWindow {count n : Nat} (h : n ∈ sumWindow count) : n ≤ count + 7 := by
  unfold sumWindow at h
  split at h <;> simp at h <;> omega

theorem simpleChecksum_eq_sumTotal (m : Memory) (count : Nat) :
    simpleChecksum m count = swap4 (BitVec.ofNat 8 (sumTotal m count)) := by
  unfold simpleChecksum sumRegister sumTotal sumWindow
  congr 1
  split
  · rw [sumBytes_eq, hi4_read_eq_nib]
    apply byte_ext
    simp [Function.comp_def]
  · rw [sumBytes_eq]
    simp [Function.comp_def]

/-- No nibble adds more than 15. -/
theorem sumTotal_le (m : Memory) (count : Nat) : sumTotal m count ≤ (count + 1) * 15 := by
  have each : ∀ x ∈ (sumWindow count).map (fun n => (nib m n).toNat), x ≤ 15 := by
    intro x hx
    obtain ⟨n, -, rfl⟩ := List.mem_map.mp hx
    exact Nat.le_of_lt_succ (nib m n).isLt
  simpa [sumTotal, length_sumWindow] using List.sum_le_card_nsmul _ 15 each

/-! ### Bits, nibbles and bytes of a frame (rule R34) -/

theorem sendOrder_eq_getD {j : Nat} (h : j < 8) : sendOrder j = [4, 5, 6, 7, 0, 1, 2, 3].getD j 0 := by
  revert j; decide

theorem getLsbD_hi4 (v : Byte) {j : Nat} (h : j < 4) : (hi4 v).getLsbD j = v.getLsbD (j + 4) := by
  simp [hi4, h, Nat.add_comm]

theorem getLsbD_lo4 (v : Byte) {j : Nat} (h : j < 4) : (lo4 v).getLsbD j = v.getLsbD j := by
  simp [lo4, h]

/-- Nibble `k div 4` is the half of byte `k div 8` from which bit `k` is sent. -/
theorem bitk_eq_nib (m : Memory) (k : Nat) : bitk m k = (nib m (k / 4)).getLsbD (k % 4) := by
  have byte : k / 4 / 2 = k / 8 := by omega
  rw [bitk, nib, byte, sendOrder]
  by_cases first : k % 8 < 4
  · rw [if_pos first, if_pos (by omega), getLsbD_hi4 _ (by omega)]
    congr 1; omega
  · rw [if_neg first, if_neg (by omega), getLsbD_lo4 _ (by omega)]
    congr 1; omega

/-- A byte's eight bits in the order they are sent. -/
def sentBits (v : Byte) : List Bool := (List.range 8).map fun j => v.getLsbD (sendOrder j)

theorem byteOfBits_sentBits : ∀ v : Byte, byteOfBits (sentBits v) = v := by decide

/-- `byteOfBits` reads the first eight bits alone. -/
theorem byteOfBits_congr {bits bits' : List Bool} (h : ∀ j < 8, bits.getD j false = bits'.getD j false) :
    byteOfBits bits = byteOfBits bits' := by
  refine foldl_congr_mem _ _ _ _ fun b j hj => ?_
  rw [h j (List.mem_range.mp hj)]

/-- A frame's 104 bits (rule R34). -/
def frameBitList (m : Memory) : List Bool := (List.range frameBits).map (bitk m)

theorem byteOfBits_drop_frameBitList (m : Memory) {i : Nat} (hi : i < bufferSize) :
    byteOfBits ((frameBitList m).drop (8 * i)) = Memory.read m i := by
  rw [← byteOfBits_sentBits (Memory.read m i)]
  refine byteOfBits_congr fun j hj => ?_
  rw [bufferSize] at hi
  have inFrame : 8 * i + j < frameBits := by rw [frameBits]; omega
  have byte : (8 * i + j) / 8 = i := by omega
  have bit : (8 * i + j) % 8 = j := by omega
  simp [frameBitList, sentBits, List.getD_eq_getElem?_getD, inFrame, hj, bitk, byte, bit]

/-- Rule R134: a canonical buffer is made of its frame's bits. -/
theorem bufferOfBits_frameBitList {m : Memory} (hw : Memory.wf m = true) : bufferOfBits (frameBitList m) = m := by
  refine memory_ext (wf_foldl_write _ _ rfl) hw fun i hi => ?_
  have filled : Memory.read (bufferOfBits (frameBitList m)) i = byteOfBits ((frameBitList m).drop (8 * i)) :=
    read_fill (fun i => byteOfBits ((frameBitList m).drop (8 * i))) (n := 13) rfl (Nat.le_refl 13) hi
  rw [filled, byteOfBits_drop_frameBitList m hi]

/-! ### Reading a waveform back (rule R134) -/

/-- The waveform's level `r` microseconds before the end of cell `k`. -/
theorem levelAt_wave_cell (p : Params) (m : Memory) {k r : Nat} (hk : k < frameBits) (h0 : 0 < r) (hr : r ≤ p.cellUs) :
    levelAt (wave p m) (p.cellUs * (k + 1) - r) = if p.cellUs - r < p.firstUs (bitk m k) then bitk m k else !bitk m k := by
  have cells : p.cellUs * (k + 1) ≤ p.cellUs * 104 := Nat.mul_le_mul_left _ hk
  have one : p.cellUs ≤ p.cellUs * (k + 1) := Nat.le_mul_of_pos_right _ (by omega)
  have all : p.cellUs * 104 = 208 * p.unitUs := by rw [Params.cellUs]; ring
  have hE := cells_le_frameEnd p m
  rw [levelAt_wave p m (0 : BitVec 0) _ (by omega), sched_cell p m _ hk h0 hr]

/-- The levels at a cell's start and at its end are those of its bit. -/
theorem decodeBit_wave (p : Params) (m : Memory) {k : Nat} (hk : k < frameBits) :
    decodeBit p (wave p m) k = some (bitk m k) := by
  have hpos := firstUs_pos p (bitk m k)
  have hlt : p.firstUs (bitk m k) < p.cellUs := firstUs_lt p _
  have start : levelAt (wave p m) (p.cellUs * k) = bitk m k := by
    have h := levelAt_wave_cell p m hk (r := p.cellUs) (by omega) (Nat.le_refl _)
    rwa [Nat.mul_succ, Nat.add_sub_cancel, if_pos (by omega)] at h
  have last : levelAt (wave p m) (p.cellUs * (k + 1) - 1) = !bitk m k := by
    rw [levelAt_wave_cell p m hk (by omega) (by omega), if_neg (by omega)]
  rw [decodeBit, start, last]
  cases bitk m k <;> rfl

theorem mapM_eq_some_map {α β : Type} {f : α → Option β} {g : α → β} {l : List α} (h : ∀ x ∈ l, f x = some (g x)) :
    l.mapM f = some (l.map g) := by
  induction l with
  | nil => rfl
  | cons x l ih =>
    obtain ⟨head, tail⟩ := List.forall_mem_cons.mp h
    simp [head, ih tail]

theorem decodeWave_wave (p : Params) {m : Memory} (hw : Memory.wf m = true) : decodeWave p (wave p m) = some m := by
  have bits : (List.range frameBits).mapM (decodeBit p (wave p m)) = some (frameBitList m) :=
    mapM_eq_some_map fun k hk => decodeBit_wave p m (List.mem_range.mp hk)
  rw [decodeWave, bits, Option.map_some, bufferOfBits_frameBitList hw]

/-! ### The payload BUILD assembles (rules R31, R100 to R109) -/

@[simp] theorem bcdEncode_d0_toNat (te : Word) (hu : Byte) : (bcdEncode te hu).d0.toNat = te.toInt.natAbs % 10 :=
  digit_toNat _
@[simp] theorem bcdEncode_d1_toNat (te : Word) (hu : Byte) : (bcdEncode te hu).d1.toNat = te.toInt.natAbs / 10 % 10 :=
  digit_toNat _
@[simp] theorem bcdEncode_d2_toNat (te : Word) (hu : Byte) : (bcdEncode te hu).d2.toNat = te.toInt.natAbs / 100 % 10 :=
  digit_toNat _
@[simp] theorem bcdEncode_h0_toNat (te : Word) (hu : Byte) : (bcdEncode te hu).h0.toNat = hu.toNat % 10 := digit_toNat _
@[simp] theorem bcdEncode_h1_toNat (te : Word) (hu : Byte) : (bcdEncode te hu).h1.toNat = hu.toNat / 10 % 10 := digit_toNat _

/-- The channel saturates (rule R103). -/
theorem channelNibble_toNat (chan : Byte) : (channelNibble chan).toNat = min chan.toNat 15 := by
  unfold channelNibble
  split
  · simp; omega
  · rw [lo4_toNat]; omega

theorem exec_build (s : State) :
    exec (.build 0 0) s =
      .next ({ s with mem := build s.typeCode s.chan s.roll s.batt s.temp s.hum } : State).releaseSumr.releaseCrcr := by
  obtain ⟨t, ht, rfl⟩ := exec_of_wellFormed (i := .build 0 0) s rfl (fun _ _ => Instr.noConfusion)
  exact ht

theorem exec_build_reserved {a : Nibble} {v : Byte} (s : State) (h : a ≠ 0 ∨ v ≠ 0) :
    exec (.build a v) s = .next (raise .reserved (encode (.build a v)) s) :=
  if_pos h

section
variable (ty : Word) (ch ro : Byte) (ba : Nibble) (te : Word) (hu : Byte)

/-- Bytes 0 to 10 are those of steps 1 to 7 (rule R101). -/
theorem read_build_field {j : Nat} (hj : j < 11) :
    Memory.read (build ty ch ro ba te hu) j = Memory.read (buildFields ty ch ro ba te hu) j := by
  rw [read_build, if_neg (by omega), if_neg (by omega)]

/-- Step 8 sums nibbles 7 to 21: the odd step's nibble 22 is in `B[11]`, which is still 0 (rule R108). -/
theorem read_build_sum :
    Memory.read (build ty ch ro ba te hu) 11
      = swap4 (BitVec.ofNat 8
          (((List.range 15).map (fun j => (nib (build ty ch ro ba te hu) (7 + j)).toNat)).sum % 256)) := by
  have unwritten : Memory.read (buildFields ty ch ro ba te hu) 11 = 0 := by simp [read_buildFields]
  have fields : sumBytes (buildFields ty ch ro ba te hu) 7 = sumBytes (build ty ch ro ba te hu) 7 :=
    sumBytes_congr fun k _ hk => nib_congr (read_build_field ty ch ro ba te hu (by omega)).symm
  have stored : Memory.read (build ty ch ro ba te hu) 11 = simpleChecksum (buildFields ty ch ro ba te hu) 15 := by
    rw [read_build, if_neg (by omega), if_pos rfl]
  rw [stored]
  show swap4 (sumBytes _ 7 + zext8 (hi4 (Memory.read _ 11))) = _
  rw [unwritten, fields, sumBytes_eq, show zext8 (hi4 0) = 0 from rfl, add_zero]
  exact congrArg swap4 (byte_ext (by simp))

/-- Step 9's CRC reads nothing that it writes (rule R109). -/
theorem read_build_crc :
    Memory.read (build ty ch ro ba te hu) 12 = crc8 (build ty ch ro ba te hu) 15 := by
  rw [read_build, if_pos rfl]
  refine crc8_congr fun n _ hn => nib_congr ?_
  rw [build, storeCrc, read_write_other _ _ (by omega)]

end

end Sys2Proof.Machine

open Sys2Proof Sys2Proof.Machine

/-- Settles O17: by induction on the commands, each accepted in one step that leaves the block ready. -/
theorem presentedCommandsRunToTheEnd : Obligations.PresentedCommandsRunToTheEnd := by
  intro is s hb he his
  obtain ⟨t, hrun, host, ready⟩ := run_present (s := { s with host := present is }) his ((cmdReady_iff _).mpr ⟨hb, he⟩) rfl
  exact ⟨t, hrun, host, (cmdReady_iff t).mp ready⟩

/-- Settles O30: the window holds `count + 1` nibbles of at most 15. -/
theorem checksumIsTheSwappedSumOfItsWindow : Obligations.ChecksumIsTheSwappedSumOfItsWindow := by
  intro m count hc
  refine ⟨simpleChecksum_eq_sumTotal m count, fun h16 => ?_, fun n hn => ?_⟩
  · have := sumTotal_le m count
    show sumTotal m count ≤ 255
    omega
  · have := le_of_mem_sumWindow hn
    omega

/-- Settles O41: the fields byte by byte, and each checksum read over the finished payload. -/
theorem buildAssemblesTheLayout : Obligations.BuildAssemblesTheLayout := by
  intro a imm8 s
  refine ⟨⟨_, exec_build s, rfl, wf_build .., ?_⟩, fun h => exec_build_reserved s h⟩
  simp only [releaseCrcr_mem, releaseSumr_mem]
  refine ⟨?_, ?_, ?_, ?_, ?_, ?_, ?_, ?_, ?_, ?_, ?_, read_build_sum .., read_build_crc ..⟩
  all_goals rw [read_build_field _ _ _ _ _ _ (by omega), read_buildFields]
  all_goals simp [channelNibble_toNat, sign_toNat]
  all_goals omega

/-- Settles O47: the table of rule R34, the halves of a byte, and the two levels that tell each cell's bit. -/
theorem decodedWaveformIsThePayload : Obligations.DecodedWaveformIsThePayload := by
  refine fun p m => ⟨fun k _ => ⟨?_, bitk_eq_nib m k⟩, decodeWave_wave p⟩
  rw [bitk, sendOrder_eq_getD (by omega)]
end

section
/-! The statements of 30_encoding.md: the words of the commands, the port, refusals, 16-bit loads, the word that waits. -/

namespace Sys2Proof.Machine

/-! ### Encoding and decoding are inverse (rules R47, R49, R55) -/

/-- The opcode map takes each of its three fields into the command. -/
theorem fields_of_opcodeMap {op a : Nibble} {v : Byte} {i : Instr} (h : opcodeMap op a v = .ok i) :
    i.op = op ∧ i.fieldA = a ∧ i.fieldImm8 = v := by
  unfold opcodeMap at h
  split at h <;> cases h
  all_goals
    rename_i code
    exact ⟨nibble_ext code.symm, rfl, rfl⟩

theorem encode_of_decode {w : Word} {i : Instr} (h : decode w = .ok i) : encode i = w := by
  obtain ⟨op, a, imm8⟩ := fields_of_opcodeMap h
  apply BitVec.eq_of_toNat_eq
  rw [encode_toNat, op, a, imm8, wordOp_toNat, wordA_toNat, wordImm8_toNat]
  omega

theorem decode_and_encode {w : Word} {i : Instr} (h : encode i = w) : decode w = .ok i ∧ encode i = w :=
  ⟨h ▸ decode_encode i, h⟩

/-- The `op` of a command is one of the ten of rule R49. -/
theorem op_bounds (i : Instr) : 1 ≤ i.op.toNat ∧ i.op.toNat ≤ 10 := by
  cases i <;> simp [Instr.op]

/-- A word whose `op` is one of the ten is a command. -/
theorem exists_decode {w : Word} (h : 1 ≤ w.toNat / 4096 ∧ w.toNat / 4096 ≤ 10) : ∃ i, decode w = .ok i := by
  obtain ⟨low, high⟩ := h
  rw [← wordOp_toNat] at low high
  unfold decode opcodeMap
  generalize (wordOp w).toNat = op at low high
  interval_cases op <;> exact ⟨_, rfl⟩

theorem decode_ne_ok {w : Word} (h : w.toNat / 4096 = 0 ∨ 11 ≤ w.toNat / 4096) (i : Instr) : decode w ≠ .ok i := by
  intro hi
  obtain ⟨op, -⟩ := fields_of_opcodeMap hi
  have bounds := op_bounds i
  rw [op, wordOp_toNat] at bounds
  omega

theorem decode_of_decodeTableWord {n w : Nat} {i : Instr} (h : decodeTableWord n w = some i) :
    decode (tableWord n w) = .ok i := by
  unfold decodeTableWord at h
  split at h
  · rename_i e
    rw [e, Option.some.inj h]
  · cases h

/-! ### The presented word, accepted or not (rules R45, R46, R187) -/

/-- A ready block accepts the presented word. -/
theorem step_of_ready {s : State} {w : Word} {rest : List HostAct} (hr : s.cmdReady = true)
    (hh : s.host = .hold w :: rest ∨ s.host = .offer w :: rest) : step s = accept w { s with host := rest } := by
  unfold step portStep
  rcases hh with hh | hh <;> rw [hh] <;> exact if_pos hr

theorem accept_of_decode {w : Word} {i : Instr} (h : decode w = .ok i) (s : State) : accept w s = exec i s := by
  rw [accept, h]

/-- A word that is no command raises `ErrIllegal` (rule R51). -/
theorem accept_of_not_command {w : Word} (h : ∀ i, decode w ≠ .ok i) (s : State) :
    accept w s = .next (raise .illegal w s) := by
  unfold accept
  split
  · rename_i i e
    exact absurd e (h i)
  · rfl

theorem step_of_ready_of_decode {s : State} {w : Word} {rest : List HostAct} {i : Instr} (hr : s.cmdReady = true)
    (hh : s.host = .hold w :: rest ∨ s.host = .offer w :: rest) (hi : decode w = .ok i) :
    step s = exec i { s with host := rest } :=
  (step_of_ready hr hh).trans (accept_of_decode hi _)

theorem step_idle_host {s : State} (hh : s.host = []) : step s = .next (tick s) := by
  rw [step, portStep, hh]

/-- A block that is not ready lets a held word wait. -/
theorem step_hold_of_not_ready {s : State} {w : Word} {rest : List HostAct} (hr : s.cmdReady = false)
    (hh : s.host = .hold w :: rest) : step s = .next (tick s) := by
  rw [step, portStep, hh]
  exact if_neg (by simp [hr])

/-- A block that is not ready sees an offered word withdrawn. -/
theorem step_offer_of_not_ready {s : State} {w : Word} {rest : List HostAct} (hr : s.cmdReady = false)
    (hh : s.host = .offer w :: rest) : step s = .next (tick { s with host := rest }) := by
  rw [step, portStep, hh]
  exact if_neg (by simp [hr])

/-! ### Ill-formed commands (rules R50, R146) -/

/-- The error that reports a failed check (rule R141). -/
def errorOf : IllFormed → ErrKind
  | .reserved => .reserved
  | .index => .index
  | .count => .count
  | .value => .value

theorem hi4_ne_zero_iff (v : Byte) : hi4 v ≠ 0 ↔ 15 < v.toNat := by
  rw [Ne, ← BitVec.toNat_inj, hi4_toNat]
  show ¬v.toNat / 16 = 0 ↔ _
  omega

/-- One check made as `illFormed` makes it: the command is refused with that check's error, or `y` goes on. -/
theorem refusal_of_check {p q : Prop} [Decidable p] [Decidable q] (same : p ↔ q) {e c : IllFormed} {o : Option IllFormed}
    {s : State} {cmd : Word} {y : Host.Outcome State Fault Refusal} (h : (if p then some e else o) = some c)
    (rest : o = some c → y = .next (raise (errorOf c) cmd s)) :
    (if q then .next (raise (errorOf e) cmd s) else y) = .next (raise (errorOf c) cmd s) := by
  by_cases hp : p
  · rw [if_pos hp, Option.some.injEq] at h
    rw [if_pos (same.mp hp), h]
  · rw [if_neg hp] at h
    rw [if_neg (mt same.mpr hp), rest h]

/-- Each command makes the checks of `illFormed` in their order and reports the first that fails. -/
theorem exec_of_illFormed {i : Instr} {c : IllFormed} (h : i.illFormed = some c) (s : State) :
    exec i s = .next (raise (errorOf c) (encode i) s) := by
  cases i with
  | ldr a v =>
    exact refusal_of_check .rfl h fun h =>
      refusal_of_check (and_congr_right fun _ => (hi4_ne_zero_iff v).symm) h fun h => nomatch h
  | ldb a v | bcde a v | bcdd a v | build a v | xmit a v =>
    exact refusal_of_check .rfl h fun h => nomatch h
  | rdb a v | rdr a v | sum8 a v | crc8 a v =>
    exact refusal_of_check .rfl h fun h => refusal_of_check .rfl h fun h => nomatch h

theorem errorOf_code_bounds (c : IllFormed) :
    2 ≤ (errorOf c).code.toNat ∧ (errorOf c).code.toNat ≤ 6 := by
  cases c <;> decide

/-! ### Every command and every step answers a next state (rules R51, R142, R163) -/

theorem execBcdd_answers (a : Nibble) (v : Byte) (s : State) : ∃ t, execBcdd a v s = .next t := by
  unfold execBcdd
  split
  · exact ⟨_, rfl⟩
  · split <;> exact ⟨_, rfl⟩

/-- An ill-formed command is refused, a well-formed one has its effect, and BCDD has one refusal more. -/
theorem exec_answers (i : Instr) (s : State) : ∃ t, exec i s = .next t := by
  cases h : i.illFormed with
  | some c => exact ⟨_, exec_of_illFormed h s⟩
  | none =>
    by_cases hd : ∃ a v, i = .bcdd a v
    · obtain ⟨a, v, rfl⟩ := hd
      exact execBcdd_answers a v s
    · obtain ⟨t, ht, -⟩ := exec_of_wellFormed s (Option.isNone_iff_eq_none.mpr h) fun a v e => hd ⟨a, v, e⟩
      exact ⟨t, ht⟩

theorem accept_answers (w : Word) (s : State) : ∃ t, accept w s = .next t := by
  by_cases h : ∃ i, decode w = .ok i
  · obtain ⟨i, hi⟩ := h
    rw [accept_of_decode hi]
    exact exec_answers i s
  · exact ⟨_, accept_of_not_command (fun i hi => h ⟨i, hi⟩) s⟩

theorem step_answers (s : State) : ∃ t, step s = .next t := by
  unfold step portStep
  split
  · exact ⟨_, rfl⟩
  · exact ⟨_, rfl⟩
  · exact ⟨_, rfl⟩
  · split
    · exact accept_answers _ _
    · exact ⟨_, rfl⟩
  · split
    · exact accept_answers _ _
    · exact ⟨_, rfl⟩

/-! ### Two LDRs load a 16-bit register (rules R48, R54) -/

theorem setHighByte_setLowByte (t v : Word) :
    setHighByte (setLowByte t (v.extractLsb' 0 8)) (v.extractLsb' 8 8) = v := by
  apply BitVec.eq_of_toNat_eq
  rw [setHighByte_toNat, setLowByte_toNat, highByte_toNat, lowByte_toNat]
  omega

theorem setLowByte_setHighByte (t v : Word) :
    setLowByte (setHighByte t (v.extractLsb' 8 8)) (v.extractLsb' 0 8) = v := by
  apply BitVec.eq_of_toNat_eq
  rw [setLowByte_toNat, setHighByte_toNat, highByte_toNat, lowByte_toNat]
  omega

/-- A ready block accepts a held LDR to an entry other than `BATT`, whatever its byte. -/
theorem step_hold_ldr {s : State} {a : Nibble} {v : Byte} {rest : List HostAct} (hr : s.cmdReady = true)
    (hh : s.host = .hold (encode (.ldr a v)) :: rest) (ha : a.toNat ≤ 7) (ha4 : a.toNat ≠ 4) :
    step s = .next (writeReg a v { s with host := rest }) :=
  (step_hold_of_ready hr hh).trans (exec_ldr_of_legal _ ha fun h => absurd h ha4)

/-- Two such LDRs, presented to a ready block, are two register writes. -/
theorem run_two_ldr {s : State} (hr : s.cmdReady = true) {a b : Nibble} {u v : Byte}
    (hh : s.host = present [.ldr a u, .ldr b v]) (ha : a.toNat ≤ 7 ∧ a.toNat ≠ 4) (hb : b.toNat ≤ 7 ∧ b.toNat ≠ 4) :
    Host.Core.run Sys2Proof.core 2 s
      = .next (writeReg b v { writeReg a u { s with host := present [.ldr b v] } with host := [] }) := by
  obtain ⟨ha, ha4⟩ := ha
  obtain ⟨hb, hb4⟩ := hb
  have ready : (writeReg a u { s with host := present [.ldr b v] }).cmdReady = true := by
    simpa [State.cmdReady] using hr
  exact (run_succ 1 (step_hold_ldr hr hh ha ha4)).trans <| run_succ 0 (step_hold_ldr ready (writeReg_host ..) hb hb4)

/-! ### A held word waits through the frame (rules R45, R131, R187) -/

theorem tick_inFrame (s : State) {n : Nat} (l : List HostAct) (hn : n + 1 < frameEnd Config.params s.mem) :
    tick (s.inFrame n l) = s.inFrame (n + 1) l := by
  have settled : settledFrame (s.inFrame n l) = sched Config.params s.mem s.now (n + 1) :=
    settledFrame_of_sched (s := s.inFrame n l) rfl rfl hn
  rw [tick_of_busy (by rw [settled, sched_busy]), settled]
  simp only [State.inFrame, ← addT_micros]
  rfl

theorem inFrame_not_ready (s : State) (n : Nat) (l : List HostAct) : (s.inFrame n l).cmdReady = false := by
  simp [State.cmdReady, State.inFrame]

/-- Before the frame's last microsecond the word still waits. -/
theorem run_inFrame_hold (s : State) (w : Word) (rest : List HostAct) {n : Nat} (hn : n < frameEnd Config.params s.mem) :
    Host.Core.run Sys2Proof.core n (s.inFrame 0 (.hold w :: rest)) = .next (s.inFrame n (.hold w :: rest)) := by
  induction n with
  | zero => rfl
  | succ n ih =>
    refine run_last n (ih (by omega)) ?_
    rw [step_hold_of_not_ready (inFrame_not_ready ..) rfl, tick_inFrame s _ hn]

/-- The whole frame run with a word held, the block is idle and the word still waits. -/
theorem run_frame_hold (s : State) (w : Word) (rest : List HostAct) :
    ∃ t, Host.Core.run Sys2Proof.core (frameEnd Config.params s.mem) (s.inFrame 0 (.hold w :: rest)) = .next t ∧
      t.mem = s.mem ∧ t.busy = false ∧ t.err = s.err ∧ t.host = .hold w :: rest := by
  obtain ⟨n, hn⟩ := Nat.exists_eq_add_one.mpr (frameEnd_pos Config.params s.mem)
  have last : (settledFrame (s.inFrame n (.hold w :: rest))).busy = false :=
    settledFrame_of_sched_last (s := s.inFrame n (.hold w :: rest)) rfl rfl hn.symm
  rw [hn]
  exact ⟨_, run_last n (run_inFrame_hold s w rest (by omega)) (step_hold_of_not_ready (inFrame_not_ready ..) rfl),
    tick_mem _, (tick_busy _).trans last, tick_err _, tick_host _⟩

end Sys2Proof.Machine

open Sys2Proof Sys2Proof.Machine

/-- Settles O2: each field of a command is read back from its place in the word. -/
theorem everyCommandDecodesFromItsWord : Obligations.EveryCommandDecodesFromItsWord :=
  decode_encode

/-- Settles O3: a word is its three fields side by side, and the opcode map keeps each. -/
theorem everyDecodedWordIsItsCommandsWord : Obligations.EveryDecodedWordIsItsCommandsWord :=
  fun _ _ => encode_of_decode

/-- Settles O4: the ready block accepts the word, which is no command or, with an `op` of the ten, one that fails a check. -/
theorem wordsThatAreNoCommandRaiseAnError : Obligations.WordsThatAreNoCommandRaiseAnError := by
  intro s w rest hb he hh
  have ready := (cmdReady_iff s).mpr ⟨hb, he⟩
  refine ⟨fun hop => (step_of_ready ready hh).trans (accept_of_not_command (decode_ne_ok hop) _), fun hop => ?_⟩
  obtain ⟨i, hi⟩ := exists_decode hop
  refine ⟨i, hi, fun hw => ?_⟩
  obtain ⟨c, hc⟩ : ∃ c, i.illFormed = some c := Option.isSome_iff_exists.mp (by simpa [Instr.wellFormed] using hw)
  obtain ⟨low, high⟩ := errorOf_code_bounds c
  refine ⟨_, low, high, ?_⟩
  rw [step_of_ready_of_decode ready hh hi, exec_of_illFormed hc, encode_of_decode hi]
  rfl

/-- Settles O5: the checks of each command are those of `illFormed`, in its order. -/
theorem illFormedCommandsReportTheFirstFailedCheck : Obligations.IllFormedCommandsReportTheFirstFailedCheck :=
  fun _ s => ⟨(exec_of_illFormed · s), (exec_of_illFormed · s), (exec_of_illFormed · s), (exec_of_illFormed · s)⟩

/-- Settles O8: the step is a tick, and a tick does not look at what the host does next. -/
theorem unacceptedWordHasNoEffect : Obligations.UnacceptedWordHasNoEffect := by
  intro s w rest h
  have notReady : s.cmdReady = false := by rcases h with h | h <;> simp [State.cmdReady, h]
  have noWord : step { s with host := [] } = .next { tick s with host := [] } := by
    rw [step_idle_host rfl, tick_withHost]
  refine ⟨fun hh => ⟨_, step_hold_of_not_ready notReady hh, tick_host s, noWord⟩, fun hh => ?_⟩
  refine ⟨_, step_offer_of_not_ready notReady hh, tick_host _, ?_⟩
  rw [noWord, tick_withHost s rest]

/-- Settles O28: two register writes, which set both halves of the word. -/
theorem sixteenBitLoadsTakeTwoCommands : Obligations.SixteenBitLoadsTakeTwoCommands := by
  intro v s hb he
  have ready := (cmdReady_iff s).mpr ⟨hb, he⟩
  constructor
  · have run := run_two_ldr (s := { s with host := present (Pseudo.ldtemp v).expand }) ready rfl (by decide) (by decide)
    exact run.trans
      (congrArg (fun x => Host.Outcome.next { s with host := [], temp := x }) (setHighByte_setLowByte s.temp v))
  · have run := run_two_ldr (s := { s with host := present (Pseudo.ldtype v).expand }) ready rfl (by decide) (by decide)
    exact run.trans
      (congrArg (fun x => Host.Outcome.next { s with host := [], typeCode := x }) (setLowByte_setHighByte s.typeCode v))

/-- Settles O49: XMIT's accepting step, then the frame with the word held, which leaves the block ready. -/
theorem waitingWordIsAcceptedWhenTheFrameEnds : Obligations.WaitingWordIsAcceptedWhenTheFrameEnds := by
  intro s i rest hb he hh _
  have accepted : step s = .next (s.inFrame 0 (.hold (encode i) :: rest)) :=
    (step_hold_of_ready ((cmdReady_iff s).mpr ⟨hb, he⟩) hh).trans (exec_xmit_inFrame _)
  obtain ⟨t, hrun, mem, busy, err, host⟩ := run_frame_hold s (encode i) rest
  rw [Nat.add_comm, run_succ _ accepted]
  exact ⟨t, hrun, mem, busy, host, step_hold_of_ready ((cmdReady_iff t).mpr ⟨busy, err.trans he⟩) host⟩

/-- Settles O1: the word as arithmetic, and each example from its command's word. -/
theorem commandWordsAreTheSpecsExamples : Obligations.CommandWordsAreTheSpecsExamples := by
  refine ⟨fun i => by rw [encode_toNat]; omega, ?_, ?_, ?_, ?_, ?_, ?_, ?_, ?_, ?_, ?_⟩
  all_goals exact decode_and_encode rfl

/-- Settles O7: the ready block accepts the word; `withFetchWord` presents one as a held word does. -/
theorem stepRunsTheDecodedCommand : Obligations.StepRunsTheDecodedCommand := by
  refine ⟨fun s w rest i hb he hh hi => ?_, fun s w i hb he hi => ?_⟩
  · exact step_of_ready_of_decode ((cmdReady_iff s).mpr ⟨hb, he⟩) hh hi
  · exact step_of_ready_of_decode (s := s.withFetchWord 16 w) ((cmdReady_iff _).mpr ⟨hb, he⟩) (.inl rfl)
      (decode_of_decodeTableWord hi)

/-- Settles O12: the port and every command answer a next state in each of their cases. -/
theorem everyStepAnswersANextState : Obligations.EveryStepAnswersANextState :=
  ⟨step_answers, exec_answers⟩
end

section
/-! The statements of 40_access.md: LDB, RDB, LDR and RDR, entry by entry and error by error. -/

namespace Sys2Proof.Machine

/-! ### The parts of a register as numbers (rules R6, R12) -/

theorem lo4_eq_ofNat (v : Byte) : lo4 v = BitVec.ofNat 4 v.toNat := by
  apply nibble_ext
  rw [lo4_toNat, BitVec.toNat_ofNat]

theorem zext8_eq_ofNat (n : Nibble) : zext8 n = BitVec.ofNat 8 n.toNat := (BitVec.ofNat_toNat 8 n).symm

theorem setHighByte_eq_ofNat (t : Word) (v : Byte) :
    setHighByte t v = BitVec.ofNat 16 (v.toNat * 256 + t.toNat % 256) := by
  have := v.isLt
  apply BitVec.eq_of_toNat_eq
  rw [setHighByte_toNat, BitVec.toNat_ofNat]
  omega

theorem setLowByte_eq_ofNat (t : Word) (v : Byte) :
    setLowByte t v = BitVec.ofNat 16 (t.toNat / 256 * 256 + v.toNat) := by
  have := t.isLt
  have := v.isLt
  apply BitVec.eq_of_toNat_eq
  rw [setLowByte_toNat, BitVec.toNat_ofNat]
  omega

theorem highByte_eq_ofNat (t : Word) : t.extractLsb' 8 8 = BitVec.ofNat 8 (t.toNat / 256) := by
  have := t.isLt
  apply byte_ext
  rw [highByte_toNat, BitVec.toNat_ofNat]
  omega

theorem lowByte_eq_ofNat (t : Word) : t.extractLsb' 0 8 = BitVec.ofNat 8 (t.toNat % 256) := by
  apply byte_ext
  rw [lowByte_toNat, BitVec.toNat_ofNat]
  omega

/-! ### The command words (rule R55) -/

theorem encode_toNat_of_op {i : Instr} {n : Nat} (op : 4096 * i.op.toNat = n) :
    (encode i).toNat = n + i.fieldA.toNat * 256 + i.fieldImm8.toNat := by
  rw [encode_toNat, op]
  omega

theorem encode_toNat_of_op_of_imm8_zero {i : Instr} {n : Nat} (op : 4096 * i.op.toNat = n) (imm8 : i.fieldImm8 = 0) :
    (encode i).toNat = n + i.fieldA.toNat * 256 := by
  rw [encode_toNat_of_op op, imm8]
  rfl

/-! ### The three refusals, with the codes of rule R141 written out -/

theorem exec_of_reserved {i : Instr} (s : State) (h : i.illFormed = some .reserved) :
    exec i s = .next { s with err := true, errcode := 2, errcw := encode i } :=
  exec_of_illFormed h s

theorem exec_of_index {i : Instr} (s : State) (h : i.illFormed = some .index) :
    exec i s = .next { s with err := true, errcode := 3, errcw := encode i } :=
  exec_of_illFormed h s

theorem exec_of_value {i : Instr} (s : State) (h : i.illFormed = some .value) :
    exec i s = .next { s with err := true, errcode := 6, errcw := encode i } :=
  exec_of_illFormed h s

/-! ### LDB and RDB on the bytes that exist (rules R60, R61) -/

theorem exec_ldb_of_legal {a : Nibble} (v : Byte) (s : State) (ha : a.toNat ≤ 12) :
    exec (.ldb a v) s = .next { s with mem := Memory.write s.mem a.toNat v } :=
  if_neg (by omega)

theorem exec_rdb_of_legal {a : Nibble} (s : State) (ha : a.toNat ≤ 12) :
    exec (.rdb a 0) s = .next { s with res := Memory.read s.mem a.toNat } := by
  show execRdb a 0 s = _
  rw [execRdb, if_neg (by simp), if_neg (by omega)]

end Sys2Proof.Machine

open Sys2Proof Sys2Proof.Machine

/-- Settles O23: a write at an index of the buffer reads back there and nowhere else. -/
theorem ldbStoresOneByte : Obligations.LdbStoresOneByte := by
  intro a v s wf
  refine ⟨encode_toNat_of_op rfl, fun ha => ?_, fun ha => exec_of_index s (if_pos ha)⟩
  exact ⟨_, exec_ldb_of_legal v s ha, rfl, read_write_self v wf (by omega), fun j hj => read_write_other s.mem v hj⟩

/-- Settles O25: each entry is written alone; `BATT`'s check and the index check are those of `illFormed`. -/
theorem ldrWritesOneRegister : Obligations.LdrWritesOneRegister := by
  intro v s
  have written (a : Nibble) (ha : a.toNat ≤ 7) (h4 : a.toNat ≠ 4) : exec (.ldr a v) s = .next (writeReg a v s) :=
    exec_ldr_of_legal s ha fun h => absurd h h4
  refine ⟨fun a => encode_toNat_of_op rfl, ?type1, ?type0, written 2 (by decide) (by decide),
    written 3 (by decide) (by decide), fun hv => ?batt, fun hv => exec_of_value s (if_pos ⟨rfl, hv⟩),
    ?temp0, ?temp1, written 7 (by decide) (by decide), fun a ha => exec_of_index s (if_pos ha)⟩
  case type1 => rw [← setHighByte_eq_ofNat]; exact written 0 (by decide) (by decide)
  case type0 => rw [← setLowByte_eq_ofNat]; exact written 1 (by decide) (by decide)
  case batt => rw [← lo4_eq_ofNat]; exact exec_ldr_of_legal s (by decide) fun _ => hv
  case temp0 => rw [← setLowByte_eq_ofNat]; exact written 5 (by decide) (by decide)
  case temp1 => rw [← setHighByte_eq_ofNat]; exact written 6 (by decide) (by decide)

/-- Settles O26: each entry as `readReg` gives it, the halves as quotient and remainder by 256. -/
theorem rdrReadsOneRegister : Obligations.RdrReadsOneRegister := by
  intro s
  rw [← highByte_eq_ofNat, ← lowByte_eq_ofNat, ← zext8_eq_ofNat, ← lowByte_eq_ofNat, ← highByte_eq_ofNat]
  refine ⟨fun a => encode_toNat_of_op_of_imm8_zero rfl rfl, ?_, ?_, ?_, ?_, ?_, ?_, ?_, ?_,
    fun a v hv => exec_of_reserved s (if_pos hv), fun a ha => ?index⟩
  case index => exact exec_of_index s (by rw [Instr.illFormed, if_neg (by simp), if_pos ha])
  all_goals exact exec_rdr_of_legal s (by decide)

/-- Settles O24: the byte of the buffer whole, and the two checks in their order. -/
theorem rdbReadsOneByte : Obligations.RdbReadsOneByte := by
  intro a v s
  refine ⟨encode_toNat_of_op_of_imm8_zero rfl rfl, exec_rdb_of_legal s,
    fun hv => exec_of_reserved s (if_pos hv), fun ha => ?_⟩
  exact exec_of_index s (by rw [Instr.illFormed, if_neg (by simp), if_pos ha])
end

section
/-! The statement of 41_sum8.md: SUM8's result, its frame and its two refusals. -/

namespace Sys2Proof.Machine

/-- The refusal of a count, with the code of rule R141 written out. -/
theorem exec_of_count {i : Instr} (s : State) (h : i.illFormed = some .count) :
    exec i s = .next { s with err := true, errcode := 4, errcw := encode i } :=
  exec_of_illFormed h s

theorem illFormed_sum8_of_legal {count : Byte} (h : count.toNat ≤ 18) : (Instr.sum8 0 count).illFormed = none := by
  rw [Instr.illFormed, if_neg (by simp), if_neg (by omega)]

theorem exec_sum8_of_legal {count : Byte} (s : State) (h : count.toNat ≤ 18) :
    exec (.sum8 0 count) s = .next ({ s with res := simpleChecksum s.mem count.toNat } : State).releaseSumr := by
  have wellFormed : (Instr.sum8 0 count).wellFormed = true := Option.isNone_iff_eq_none.mpr (illFormed_sum8_of_legal h)
  obtain ⟨t, ht, rfl⟩ := exec_of_wellFormed s wellFormed fun _ _ => Instr.noConfusion
  exact ht

end Sys2Proof.Machine

open Sys2Proof Sys2Proof.Machine

/-- Settles O29: the legal command's state, whose `SUMR` alone is released, and the two checks in their order. -/
theorem sum8WritesTheChecksum : Obligations.Sum8WritesTheChecksum := by
  intro a count s
  refine ⟨fun hc => ⟨_, exec_sum8_of_legal s hc, rfl⟩, fun ha => exec_of_reserved s (if_pos ha), fun hc => ?_⟩
  exact exec_of_count s (by rw [Instr.illFormed, if_neg (by simp), if_pos hc])
end

section
/-! The statements of 42_crc8.md: CRC8's result and frame, the loop as the conventional CRC and as a polynomial remainder, what a
changed window does, and a finished payload's two checks. -/

namespace Sys2Proof.Machine

/-! ### CRC8 on the legal counts (rule R80) -/

theorem illFormed_crc8_of_legal {count : Byte} (h : count.toNat ≤ 19) : (Instr.crc8 0 count).illFormed = none := by
  rw [Instr.illFormed, if_neg (by simp), if_neg (by omega)]

theorem exec_crc8_of_legal {count : Byte} (s : State) (h : count.toNat ≤ 19) :
    exec (.crc8 0 count) s = .next ({ s with res := crc8 s.mem count.toNat } : State).releaseCrcr := by
  have wellFormed : (Instr.crc8 0 count).wellFormed = true := Option.isNone_iff_eq_none.mpr (illFormed_crc8_of_legal h)
  obtain ⟨t, ht, rfl⟩ := exec_of_wellFormed s wellFormed fun _ _ => Instr.noConfusion
  exact ht

/-! ### The conventional form of the CRC (rules R82, R84) -/

/-- One nibble of the conventional CRC: it is entered at bits 7:4, and four rounds follow. -/
def crcEnter (c : Byte) (n : Nibble) : Byte := crcRounds4 (c ^^^ (zext8 n <<< 4))

/-- The register of the conventional CRC after `count` nibbles of the window: no flush pass. -/
def crcConventional (m : Memory) (count : Nat) : Byte :=
  (List.range count).foldl (fun c j => crcEnter c (nib m (7 + j))) 0

@[simp] theorem crcConventional_zero (m : Memory) : crcConventional m 0 = 0 := rfl

theorem crcConventional_succ (m : Memory) (count : Nat) :
    crcConventional m (count + 1) = crcEnter (crcConventional m count) (nib m (7 + count)) := by
  simp [crcConventional, List.range_succ]

/-- Four rounds after absorbing a nibble at bits 3:0 are the four rounds before entering it at bits 7:4. -/
theorem crcEnter_rounds4 (c : Byte) (n : Nibble) : crcEnter (crcRounds4 c) n = crcRounds4 (crcAbsorb c n) := by
  rw [crcEnter, crcAbsorb, rounds4_xor c, rounds4_zext]

/-- The conventional register is the loop's register four rounds on, which the flush pass supplies at the end. -/
theorem crcRegister_eq_crcConventional (m : Memory) (count : Nat) : crcRegister m count = crcConventional m count := by
  rw [crcRegister_eq]
  exact (List.foldl_hom crcRounds4 (init := 0) fun c j => crcEnter_rounds4 c (nib m (7 + j))).symm

theorem crc8_eq_swap4_crcConventional (m : Memory) (count : Nat) : crc8 m count = swap4 (crcConventional m count) := by
  rw [crc8, crcRegister_eq_crcConventional]

/-! ### The conventional form over the natural numbers (rule R82) -/

/-- A round as rule R82's arithmetic has it. -/
def crcRoundNat (c : Nat) : Nat := if 128 ≤ c then (2 * c % 256) ^^^ 7 else 2 * c % 256

theorem shiftLeft_one_toNat (c : Byte) : (c <<< 1).toNat = 2 * c.toNat % 256 := by
  rw [BitVec.toNat_shiftLeft, Nat.shiftLeft_eq, Nat.mul_comm]

/-- Bit 7 of a byte. -/
theorem byte_bit7 (c : Byte) : c.getLsbD 7 = true ↔ 128 ≤ c.toNat := by
  rw [← BitVec.msb_eq_getLsbD_last, BitVec.msb_eq_decide, decide_eq_true_iff]

theorem crcRound_toNat (c : Byte) : (crcRound c).toNat = crcRoundNat c.toNat := by
  unfold crcRound crcRoundNat
  simp only [byte_bit7]
  split
  · rw [BitVec.toNat_xor, shiftLeft_one_toNat]; rfl
  · exact shiftLeft_one_toNat c

theorem crcEnter_toNat (c : Byte) (n : Nibble) :
    (crcEnter c n).toNat = crcRoundNat (crcRoundNat (crcRoundNat (crcRoundNat (c.toNat ^^^ (n.toNat * 16))))) := by
  have place : (zext8 n <<< 4).toNat = n.toNat * 16 := by
    rw [BitVec.toNat_shiftLeft, Nat.shiftLeft_eq, zext8_toNat]
    omega
  simp only [crcEnter, crcRounds4, crcRound_toNat, BitVec.toNat_xor, place]

theorem crcConventional_toNat (m : Memory) (count : Nat) :
    (crcConventional m count).toNat = (List.range count).foldl
      (fun c j => crcRoundNat (crcRoundNat (crcRoundNat (crcRoundNat (c ^^^ ((nib m (7 + j)).toNat * 16)))))) 0 :=
  (List.foldl_hom BitVec.toNat (init := (0 : Byte)) fun c j => (crcEnter_toNat c (nib m (7 + j))).symm).symm

/-! ### What a zero window and a changed nibble do -/

theorem swap4_injective : Function.Injective swap4 := Function.LeftInverse.injective swap4_swap4

theorem crcEnter_zero : crcEnter 0 0 = 0 := rfl

theorem crcConventional_eq_zero {m : Memory} {count : Nat} (h : ∀ n, 7 ≤ n → n ≤ count + 6 → nib m n = 0) :
    crcConventional m count = 0 := by
  induction count with
  | zero => rfl
  | succ count ih =>
    rw [crcConventional_succ, ih fun n h1 h2 => h n h1 (by omega), h (7 + count) (by omega) (by omega), crcEnter_zero]

/-- Entering one nibble keeps two registers apart. -/
theorem crcEnter_injective_register (n : Nibble) : Function.Injective (crcEnter · n) :=
  fun _ _ h => (BitVec.xor_left_inj _).mp (rounds4_inj h)

/-- Two nibbles entered into one register set it apart. -/
theorem crcEnter_injective_nibble (c : Byte) : Function.Injective (crcEnter c) := by
  intro n n' h
  have shifted : crcRounds4 (zext8 n) = crcRounds4 (zext8 n') := by
    rw [rounds4_zext, rounds4_zext]
    exact (BitVec.xor_right_inj _).mp (rounds4_inj h)
  have same := congrArg BitVec.toNat (rounds4_inj shifted)
  exact nibble_ext (by simpa using same)

theorem crcConventional_congr {m m' : Memory} {count : Nat} (h : ∀ n, 7 ≤ n → n ≤ count + 6 → nib m n = nib m' n) :
    crcConventional m count = crcConventional m' count := by
  have same := crc8_congr h
  rw [crc8_eq_swap4_crcConventional, crc8_eq_swap4_crcConventional] at same
  exact swap4_injective same

/-- The registers part at the changed nibble and never meet again. -/
theorem crcConventional_ne {m m' : Memory} {count k : Nat} (h7 : 7 ≤ k) (hk : k ≤ count + 6) (changed : nib m k ≠ nib m' k)
    (rest : ∀ n, 7 ≤ n → n ≤ count + 6 → n ≠ k → nib m n = nib m' n) :
    crcConventional m count ≠ crcConventional m' count := by
  induction count with
  | zero => omega
  | succ count ih =>
    rw [crcConventional_succ, crcConventional_succ]
    rcases Nat.lt_or_ge (count + 6) k with last | earlier
    · obtain rfl : k = 7 + count := by omega
      rw [crcConventional_congr fun n h1 h2 => rest n h1 (by omega) (by omega)]
      exact (crcEnter_injective_nibble _).ne changed
    · rw [rest (7 + count) (by omega) (by omega) (by omega)]
      exact (crcEnter_injective_register _).ne (ih earlier fun n h1 h2 => rest n h1 (by omega))

/-! ### The register as a polynomial over GF(2) (rule R84) -/

section
open Polynomial

/-- The generator `x^8 + x^2 + x + 1`. -/
noncomputable def crcPoly : (ZMod 2)[X] := X ^ 8 + X ^ 2 + X + 1

/-- A bit as the coefficient of `x^e`. -/
noncomputable def bitTerm (b : Bool) (e : Nat) : (ZMod 2)[X] := if b = true then X ^ e else 0

/-- The polynomial whose coefficients are the bits of `v`. -/
noncomputable def bitsPoly {w : Nat} (v : BitVec w) : (ZMod 2)[X] :=
  ((List.range w).map (fun i => bitTerm (v.getLsbD i) i)).sum

/-- `M(x)`: the window's nibbles, nibble 7 at the highest powers. -/
noncomputable def windowPoly (m : Memory) (count : Nat) : (ZMod 2)[X] :=
  ((List.range count).map (fun j =>
    ((List.range 4).map (fun i => bitTerm ((nib m (7 + j)).getLsbD i) (4 * (count - 1 - j) + i))).sum)).sum

@[simp] theorem bitTerm_false (e : Nat) : bitTerm false e = 0 := rfl

@[simp] theorem bitTerm_true (e : Nat) : bitTerm true e = X ^ e := rfl

theorem bitTerm_add (b : Bool) (d e : Nat) : bitTerm b (d + e) = X ^ d * bitTerm b e := by
  cases b <;> simp [pow_add]

theorem bitTerm_xor (a b : Bool) (e : Nat) : bitTerm (a ^^ b) e = bitTerm a e + bitTerm b e := by
  cases a <;> cases b <;> simp [CharTwo.add_self_eq_zero]

theorem bitsPoly_xor {w : Nat} (u v : BitVec w) : bitsPoly (u ^^^ v) = bitsPoly u + bitsPoly v := by
  simp only [bitsPoly, BitVec.getLsbD_xor, bitTerm_xor, List.sum_map_add]

/-- The bits of `v` from power `d` up. -/
theorem sum_bitTerm_offset {w : Nat} (v : BitVec w) (d : Nat) :
    ((List.range w).map (fun i => bitTerm (v.getLsbD i) (d + i))).sum = X ^ d * bitsPoly v := by
  simp only [bitTerm_add, List.sum_map_mul_left, bitsPoly]

theorem windowPoly_eq (m : Memory) (count : Nat) :
    windowPoly m count = ((List.range count).map (fun j => X ^ (4 * (count - 1 - j)) * bitsPoly (nib m (7 + j)))).sum := by
  simp only [windowPoly, sum_bitTerm_offset]

@[simp] theorem windowPoly_zero (m : Memory) : windowPoly m 0 = 0 := rfl

theorem windowPoly_succ (m : Memory) (count : Nat) :
    windowPoly m (count + 1) = X ^ 4 * windowPoly m count + bitsPoly (nib m (7 + count)) := by
  have raised : ∀ j ∈ List.range count, (X ^ (4 * (count + 1 - 1 - j)) * bitsPoly (nib m (7 + j)) : (ZMod 2)[X])
      = X ^ 4 * (X ^ (4 * (count - 1 - j)) * bitsPoly (nib m (7 + j))) := fun j hj => by
    rw [List.mem_range] at hj
    rw [← mul_assoc, ← pow_add]
    congr 2
    omega
  rw [windowPoly_eq, windowPoly_eq, List.range_succ, List.map_append, List.sum_append, List.map_congr_left raised,
    List.sum_map_mul_left]
  simp

/-- Shifting a byte multiplies by `x`, and bit 7 leaves it. -/
theorem X_mul_bitsPoly (c : Byte) : X * bitsPoly c = bitsPoly (c <<< 1) + bitTerm (c.getLsbD 7) 8 := by
  have raise (b : Bool) (e : Nat) : X * bitTerm b e = bitTerm b (1 + e) := by rw [bitTerm_add, pow_one]
  simp [bitsPoly, List.range_succ, mul_add, raise, add_assoc]

theorem bitsPoly_nibble_high (n : Nibble) : bitsPoly (zext8 n <<< 4) = X ^ 4 * bitsPoly n := by
  simp [bitsPoly, List.range_succ, mul_add, ← bitTerm_add, zext8]

theorem bitsPoly_seven : bitsPoly (7 : Byte) = X ^ 2 + X + 1 := by
  simp [bitsPoly, List.range_succ, add_comm]

/-- A round multiplies by `x` and takes away the generator when `x^8` comes out. -/
theorem X_mul_bitsPoly_eq_crcRound (c : Byte) :
    X * bitsPoly c = bitsPoly (crcRound c) + if c.getLsbD 7 then crcPoly else 0 := by
  rw [X_mul_bitsPoly, crcRound]
  cases c.getLsbD 7
  · simp
  · have twice := CharTwo.add_self_eq_zero (bitsPoly (7 : Byte))
    have generator : crcPoly = X ^ 8 + bitsPoly (7 : Byte) := by rw [bitsPoly_seven, crcPoly]; ring
    simp only [if_true, bitTerm_true, bitsPoly_xor, generator]
    linear_combination -twice

/-! The residues modulo the generator: there, rounds are multiplications by powers of `x`. -/

theorem mk_crcRound (c : Byte) : AdjoinRoot.mk crcPoly (bitsPoly (crcRound c)) = AdjoinRoot.mk crcPoly (X * bitsPoly c) := by
  rw [X_mul_bitsPoly_eq_crcRound, map_add]
  split <;> simp

theorem mk_crcRounds4 (c : Byte) :
    AdjoinRoot.mk crcPoly (bitsPoly (crcRounds4 c)) = AdjoinRoot.mk crcPoly (X ^ 4 * bitsPoly c) := by
  simp only [crcRounds4, mk_crcRound, map_mul, map_pow]
  ring

theorem mk_crcConventional (m : Memory) (count : Nat) :
    AdjoinRoot.mk crcPoly (bitsPoly (crcConventional m count)) = AdjoinRoot.mk crcPoly (windowPoly m count * X ^ 8) := by
  induction count with
  | zero => simp [bitsPoly]
  | succ count ih =>
    rw [crcConventional_succ, crcEnter, mk_crcRounds4, bitsPoly_xor, bitsPoly_nibble_high, map_mul, map_add, ih, windowPoly_succ]
    simp only [map_mul, map_add, map_pow]
    ring

theorem crcPoly_monic : crcPoly.Monic := by
  unfold crcPoly
  monicity!

theorem degree_crcPoly : crcPoly.degree = 8 := by
  unfold crcPoly
  compute_degree!

theorem degree_bitsPoly_lt {w : Nat} (v : BitVec w) : (bitsPoly v).degree < w := by
  rw [← mem_degreeLT]
  refine list_sum_mem fun p hp => ?_
  obtain ⟨i, hi, rfl⟩ := List.mem_map.mp hp
  rw [List.mem_range] at hi
  rw [mem_degreeLT]
  cases v.getLsbD i
  · simp
  · rw [bitTerm_true, degree_X_pow]
    exact_mod_cast hi

theorem bitsPoly_crcConventional (m : Memory) (count : Nat) :
    bitsPoly (crcConventional m count) = (windowPoly m count * X ^ 8) %ₘ crcPoly := by
  have reduced : bitsPoly (crcConventional m count) %ₘ crcPoly = bitsPoly (crcConventional m count) := by
    rw [modByMonic_eq_self_iff crcPoly_monic, degree_crcPoly]
    exact degree_bitsPoly_lt _
  rw [← reduced]
  exact modByMonic_eq_of_dvd_sub crcPoly_monic (AdjoinRoot.mk_eq_mk.mp (mk_crcConventional m count))

end

/-! ### A finished payload (rules R86, R190) -/

/-- `SUM8 14` reads nibbles 7 to 21, none of them in `B[11]`. -/
theorem simpleChecksum_write_sum (m : Memory) (b : Byte) :
    simpleChecksum (Memory.write m 11 b) 14 = simpleChecksum m 14 :=
  simpleChecksum_congr fun _ _ => nib_congr (read_write_other m b (by omega))

/-- Without `B[11]`'s nibble in the window the finished payload sums to `B[11]`. -/
theorem simpleChecksum_build (ty : Word) (ch ro : Byte) (ba : Nibble) (te : Word) (hu : Byte) :
    simpleChecksum (build ty ch ro ba te hu) 14 = Memory.read (build ty ch ro ba te hu) 11 := by
  rw [read_build_sum, simpleChecksum, sumRegister, if_neg (by decide), sumBytes_eq]
  exact congrArg swap4 (byte_ext (by simp))

end Sys2Proof.Machine

open Sys2Proof Sys2Proof.Machine

/-- Settles O32: the legal command's state, whose `CRCR` alone is released, and the two checks in their order. -/
theorem crc8WritesTheChecksum : Obligations.Crc8WritesTheChecksum := by
  intro a count s
  refine ⟨fun hc => ⟨_, exec_crc8_of_legal s hc, rfl⟩, fun ha => exec_of_reserved s (if_pos ha), fun hc => ?_⟩
  exact exec_of_count s (by rw [Instr.illFormed, if_neg (by simp), if_pos hc])

/-- Settles O33: rounds are linear, so the flush pass moves in front of every nibble and shifts it to bits 7:4. -/
theorem crcLoopEqualsTheConventionalCrc : Obligations.CrcLoopEqualsTheConventionalCrc := by
  refine ⟨crcRound_toNat, fun m count => ⟨crc8_eq_swap4_crcConventional m count, ?_⟩⟩
  rw [crc8_eq_swap4_crcConventional]
  exact congrArg swap4 (BitVec.toNat_eq_nat.mp (crcConventional_toNat m count)).2

/-- Settles O34: the register stays 0. -/
theorem zeroWindowHasZeroCrc : Obligations.ZeroWindowHasZeroCrc := by
  intro m count h
  rw [crc8_eq_swap4_crcConventional, crcConventional_eq_zero h]
  rfl

/-- Settles O35: the registers differ, and swapping their nibbles keeps them apart. -/
theorem oneChangedNibbleChangesTheCrc : Obligations.OneChangedNibbleChangesTheCrc := by
  intro m m' count k h7 hk changed rest
  rw [crc8_eq_swap4_crcConventional, crc8_eq_swap4_crcConventional]
  exact swap4_injective.ne (crcConventional_ne h7 hk changed rest)

/-- Settles O43: each check's window is as BUILD's step 8 or 9 read it. -/
theorem finishedPayloadsCheck : Obligations.FinishedPayloadsCheck := by
  intro s b
  refine ⟨_, exec_build s, ⟨_, exec_crc8_of_legal _ (by decide), (read_build_crc ..).symm⟩,
    ⟨_, exec_sum8_of_legal _ (by decide), ?_⟩⟩
  exact (simpleChecksum_write_sum _ b).trans (simpleChecksum_build ..)

/-- Settles O51: the conventional register is congruent to `M(x) * x^8` and of degree below 8. -/
theorem crcIsThePolynomialRemainder : Obligations.CrcIsThePolynomialRemainder := by
  intro m count
  show bitsPoly (swap4 (crc8 m count)) = (windowPoly m count * Polynomial.X ^ 8) %ₘ crcPoly
  rw [crc8_eq_swap4_crcConventional, swap4_swap4, bitsPoly_crcConventional]
end

section
/-! The statements of 43_bcd.md: the data nibbles that BCDE writes and BCDD reads, and the two round trips between them. -/

namespace Sys2Proof.Machine

/-! ### Six nibbles as a reading (rules R95, R96) -/

/-- The five nibbles that must be decimal digits, as numbers. -/
def BcdNibbles.digits (n : BcdNibbles) : List Nat := [n.d0.toNat, n.d1.toNat, n.d2.toNat, n.h0.toNat, n.h1.toNat]

/-- The number `m` that the temperature's digits write. -/
def BcdNibbles.tenths (n : BcdNibbles) : Nat := n.d0.toNat + 10 * n.d1.toNat + 100 * n.d2.toNat

/-- `m` with the sign that bit 3 of the sign nibble gives it. -/
def BcdNibbles.temperature (n : BcdNibbles) : Int := if 8 ≤ n.s.toNat then -(n.tenths : Int) else n.tenths

/-- The number that the humidity's two digits write. -/
def BcdNibbles.humidity (n : BcdNibbles) : Nat := n.h0.toNat + 10 * n.h1.toNat

theorem forall_mem_digits {n : BcdNibbles} :
    (∀ d ∈ n.digits, d ≤ 9) ↔
      n.d0.toNat ≤ 9 ∧ n.d1.toNat ≤ 9 ∧ n.d2.toNat ≤ 9 ∧ n.h0.toNat ≤ 9 ∧ n.h1.toNat ≤ 9 := by
  simp [BcdNibbles.digits]

theorem bcdNibbles_ext {n n' : BcdNibbles} (digits : n.digits = n'.digits) (sign : n.s = n'.s) : n = n' := by
  simp only [BcdNibbles.digits, List.cons.injEq, BitVec.toNat_inj, and_true] at digits
  obtain ⟨d0, d1, d2, h0, h1⟩ := digits
  cases n
  cases n'
  simp_all

/-- `bcdDecode` checks its five digits and nothing else. -/
theorem bcdDecode_eq (n : BcdNibbles) :
    bcdDecode n = if ∀ d ∈ n.digits, d ≤ 9 then some (BitVec.ofInt 16 n.temperature, BitVec.ofNat 8 n.humidity)
      else none := by
  have sign : BitVec.ofInt 16 n.temperature
      = if n.s.getLsbD 3 then BitVec.ofInt 16 (-(n.tenths : Int)) else BitVec.ofNat 16 n.tenths := by
    rw [nibble_bit3, BcdNibbles.temperature]
    split <;> simp [*]
  rw [sign]
  simp only [bcdDecode, isDigit, forall_mem_digits, Bool.and_eq_true, decide_eq_true_eq, and_assoc]
  rfl

theorem natAbs_temperature (n : BcdNibbles) : n.temperature.natAbs = n.tenths := by
  unfold BcdNibbles.temperature
  split <;> simp

theorem temperature_neg_iff (n : BcdNibbles) : n.temperature < 0 ↔ 8 ≤ n.s.toNat ∧ n.tenths ≠ 0 := by
  unfold BcdNibbles.temperature
  split <;> omega

/-! ### Decoding what was encoded (rule R97) -/

theorem bcdEncode_digits_le (te : Word) (hu : Byte) : ∀ d ∈ (bcdEncode te hu).digits, d ≤ 9 := by
  rw [forall_mem_digits]
  simp only [bcdEncode_d0_toNat, bcdEncode_d1_toNat, bcdEncode_d2_toNat, bcdEncode_h0_toNat, bcdEncode_h1_toNat]
  omega

theorem bcdEncode_tenths (te : Word) (hu : Byte) : (bcdEncode te hu).tenths = te.toInt.natAbs % 1000 := by
  simp only [BcdNibbles.tenths, bcdEncode_d0_toNat, bcdEncode_d1_toNat, bcdEncode_d2_toNat]
  omega

theorem bcdEncode_temperature (te : Word) (hu : Byte) :
    (bcdEncode te hu).temperature = te.toInt.sign * ((te.toInt.natAbs % 1000 : Nat) : Int) := by
  rw [BcdNibbles.temperature, bcdEncode_tenths, sign_toNat]
  rcases lt_trichotomy te.toInt 0 with neg | zero | pos
  · simp [neg, Int.sign_eq_neg_one_of_neg neg]
  · simp [zero]
  · simp [not_lt.mpr pos.le, Int.sign_eq_one_of_pos pos]

theorem bcdEncode_humidity (te : Word) (hu : Byte) : (bcdEncode te hu).humidity = hu.toNat % 100 := by
  simp only [BcdNibbles.humidity, bcdEncode_h0_toNat, bcdEncode_h1_toNat]
  omega

theorem bcdDecode_bcdEncode (te : Word) (hu : Byte) :
    bcdDecode (bcdEncode te hu)
      = some (BitVec.ofInt 16 (te.toInt.sign * ((te.toInt.natAbs % 1000 : Nat) : Int)),
          BitVec.ofNat 8 (hu.toNat % 100)) := by
  rw [bcdDecode_eq, if_pos (bcdEncode_digits_le te hu), bcdEncode_temperature, bcdEncode_humidity]

theorem bcdDecode_bcdEncode_of_range {te : Word} {hu : Byte} (low : -999 ≤ te.toInt) (high : te.toInt ≤ 999)
    (humidity : hu.toNat ≤ 99) : bcdDecode (bcdEncode te hu) = some (te, hu) := by
  rw [bcdDecode_bcdEncode, Nat.mod_eq_of_lt (by omega), Nat.mod_eq_of_lt (by omega), Int.sign_mul_natAbs,
    BitVec.ofInt_toInt, BitVec.ofNat_toNat, BitVec.setWidth_eq]

/-! ### Encoding what was decoded (rule R98) -/

/-- Three decimal digits stay below 1000, so 16 signed bits hold the temperature they write. -/
theorem toInt_ofInt_temperature {n : BcdNibbles} (h : ∀ d ∈ n.digits, d ≤ 9) :
    (BitVec.ofInt 16 n.temperature).toInt = n.temperature := by
  obtain ⟨d0, d1, d2, -, -⟩ := forall_mem_digits.mp h
  have abs := natAbs_temperature n
  unfold BcdNibbles.tenths at abs
  rw [BitVec.toInt_ofInt_eq_self (by decide)] <;> omega

theorem toNat_ofNat_humidity {n : BcdNibbles} (h : ∀ d ∈ n.digits, d ≤ 9) :
    (BitVec.ofNat 8 n.humidity).toNat = n.humidity := by
  obtain ⟨-, -, -, h0, h1⟩ := forall_mem_digits.mp h
  rw [BitVec.toNat_ofNat, Nat.mod_eq_of_lt]
  unfold BcdNibbles.humidity
  omega

theorem bcdEncode_decoded {n : BcdNibbles} (h : ∀ d ∈ n.digits, d ≤ 9) :
    bcdEncode (BitVec.ofInt 16 n.temperature) (BitVec.ofNat 8 n.humidity)
      = { n with s := if 8 ≤ n.s.toNat ∧ n.tenths ≠ 0 then 0x8 else 0x0 } := by
  obtain ⟨d0, d1, d2, h0, h1⟩ := forall_mem_digits.mp h
  apply bcdNibbles_ext
  · simp only [BcdNibbles.digits, bcdEncode_d0_toNat, bcdEncode_d1_toNat, bcdEncode_d2_toNat, bcdEncode_h0_toNat,
      bcdEncode_h1_toNat, toInt_ofInt_temperature h, natAbs_temperature, toNat_ofNat_humidity h, List.cons.injEq, and_true]
    unfold BcdNibbles.tenths BcdNibbles.humidity
    omega
  · simp only [bcdEncode, toInt_ofInt_temperature h, temperature_neg_iff]

/-! ### The two commands (rules R90, R95) -/

theorem exec_bcde (s : State) :
    exec (.bcde 0 0) s = .next { s with mem := storeBcd (bcdEncode s.temp s.hum) s.mem } := by
  obtain ⟨t, ht, rfl⟩ := exec_of_wellFormed (i := .bcde 0 0) s rfl (fun _ _ => Instr.noConfusion)
  exact ht

theorem exec_bcdd_of_decoded {s : State} {te : Word} {hu : Byte} (h : bcdDecode (bcdNibblesOf s.mem) = some (te, hu)) :
    exec (.bcdd 0 0) s = .next { s with temp := te, hum := hu } := by
  simp [exec, execBcdd, h]

theorem exec_bcdd_of_undecoded {s : State} (h : bcdDecode (bcdNibblesOf s.mem) = none) :
    exec (.bcdd 0 0) s = .next (raise .bcd (encode (.bcdd 0 0)) s) := by
  simp [exec, execBcdd, h]

/-- The digits where the payload holds them, as arithmetic on its bytes. -/
theorem digits_bcdNibblesOf (m : Memory) :
    (bcdNibblesOf m).digits =
      [(Memory.read m 7).toNat % 16, (Memory.read m 8).toNat / 16, (Memory.read m 8).toNat % 16,
        (Memory.read m 9).toNat % 16, (Memory.read m 10).toNat / 16] := by
  simp [BcdNibbles.digits, bcdNibblesOf]

theorem temperature_bcdNibblesOf (m : Memory) :
    let tenths := (Memory.read m 7).toNat % 16 + 10 * ((Memory.read m 8).toNat / 16) + 100 * ((Memory.read m 8).toNat % 16)
    BitVec.ofInt 16 (bcdNibblesOf m).temperature =
      if 128 ≤ (Memory.read m 9).toNat then BitVec.ofInt 16 (-(tenths : Int)) else BitVec.ofInt 16 (tenths : Int) := by
  have sign : 8 ≤ (Memory.read m 9).toNat / 16 ↔ 128 ≤ (Memory.read m 9).toNat := by omega
  simp only [BcdNibbles.temperature, BcdNibbles.tenths, bcdNibblesOf, hi4_toNat, lo4_toNat, sign]
  split <;> rfl

theorem humidity_bcdNibblesOf (m : Memory) :
    (bcdNibblesOf m).humidity = (Memory.read m 9).toNat % 16 + 10 * ((Memory.read m 10).toNat / 16) := by
  simp [BcdNibbles.humidity, bcdNibblesOf]

end Sys2Proof.Machine

open Sys2Proof Sys2Proof.Machine

/-- Settles O36: the four bytes of the stored nibbles as arithmetic, and the check on the operands. -/
theorem bcdeWritesTheDataNibbles : Obligations.BcdeWritesTheDataNibbles := by
  intro a imm8 s hw
  refine ⟨rfl, ⟨_, exec_bcde s, rfl, ?_⟩, fun h => exec_of_reserved s (if_pos h)⟩
  simp only [storeBcd_read _ hw]
  refine ⟨?_, ?_, ?_, ?_, fun j hj => ?other⟩
  case other => iterate 4 rw [if_neg (by omega)]
  all_goals simp [sign_toNat]
  all_goals omega

/-- Settles O37: the nibbles are decoded exactly when their five digits are decimal. -/
theorem bcddReadsTheDataNibbles : Obligations.BcddReadsTheDataNibbles := by
  intro a imm8 s
  dsimp only
  rw [← digits_bcdNibblesOf, ← temperature_bcdNibblesOf, ← humidity_bcdNibblesOf]
  refine ⟨rfl, fun decimal => ?_, fun ⟨d, hd, big⟩ => ?_, fun h => exec_of_reserved s (if_pos h)⟩
  · exact exec_bcdd_of_decoded (by rw [bcdDecode_eq, if_pos decimal])
  · exact exec_bcdd_of_undecoded (by rw [bcdDecode_eq, if_neg fun decimal => big.not_ge (decimal d hd)])

/-- Settles O38: the digits write `|TEMP| mod 1000` and `HUM mod 100`. -/
theorem readingSurvivesEncodingAndDecoding : Obligations.ReadingSurvivesEncodingAndDecoding := fun temp hum =>
  ⟨bcdDecode_bcdEncode temp hum, fun ⟨low, high, humidity⟩ => bcdDecode_bcdEncode_of_range low high humidity⟩

/-- Settles O39: the decoded reading has the digits it came from, and is negative exactly below zero. -/
theorem decodedDigitsEncodeBack : Obligations.DecodedDigitsEncodeBack := by
  intro n d0 d1 d2 h0 h1
  have decimal : ∀ d ∈ n.digits, d ≤ 9 := forall_mem_digits.mpr ⟨d0, d1, d2, h0, h1⟩
  exact ⟨_, _, (bcdDecode_eq n).trans (if_pos decimal), bcdEncode_decoded decimal⟩

/-- Settles O40: BCDD finds the nibbles that BCDE stored, and they decode to the reading. -/
theorem bcddAfterBcdeRestoresTheReading : Obligations.BcddAfterBcdeRestoresTheReading := by
  intro s temp hum hw low high humidity
  refine ⟨_, exec_bcde s, exec_bcdd_of_decoded ?_⟩
  rw [nib_store _ hw]
  exact bcdDecode_bcdEncode_of_range low high humidity
end

section
/-! The statements of 44_build.md: commands that raise no error, and what a payload depends on. -/

open Sys2Proof Sys2Proof.Machine

/-- Settles O6: a well-formed command is not refused, and no command's effect touches the error latch. -/
theorem wellFormedCommandsRaiseNoError : Obligations.WellFormedCommandsRaiseNoError := by
  intro i s wellFormed notBcdd
  obtain ⟨t, ht, effect⟩ := exec_of_wellFormed s wellFormed notBcdd
  obtain ⟨err, errcode, errcw, -, -⟩ := effect.keeps
  exact ⟨t, ht, err, errcode, errcw⟩

/-- Settles O42: the buffer BUILD leaves is `build` of the six registers. -/
theorem equalReadingsBuildEqualPayloads : Obligations.EqualReadingsBuildEqualPayloads := by
  intro s s' typeCode chan roll batt temp hum
  refine ⟨_, _, exec_build s, exec_build s', ?_⟩
  simp only [releaseCrcr_mem, releaseSumr_mem]
  rw [typeCode, chan, roll, batt, temp, hum]
end

section
/-! The statements of 45_xmit.md: XMIT's accepting step, the frame it sends, and what a frame leaves alone. -/

namespace Sys2Proof.Machine

/-! ### What the encoder leaves alone (rule R135) -/

/-- From `s` to `t` only the encoder's registers, `NOW`, the waiting inputs and the count of free values differ. -/
def OnlyEncoderDiffers (s t : State) : Prop :=
  t = { s with
    busy := t.busy, tx := t.tx, txk := t.txk, next := t.next, now := t.now, host := t.host, draws := t.draws }

/-- A frame in progress moves the encoder alone, whatever inputs are left. -/
theorem onlyEncoderDiffers_inFrame (s : State) (n : Nat) (l : List HostAct) : OnlyEncoderDiffers s (s.inFrame n l) := rfl

theorem OnlyEncoderDiffers.tick {s t : State} (h : OnlyEncoderDiffers s t) : OnlyEncoderDiffers s (tick t) := by
  unfold OnlyEncoderDiffers at h ⊢
  rw [tick_keeps t, h]

/-! ### The frame's last microsecond (rules R130, R131) -/

/-- `E` steps without reset into the frame, the block has ticked once more from the frame's last microsecond. -/
theorem run_frame (s : State) (hs : s.noReset) {n : Nat} (hn : n + 1 = frameEnd Config.params s.mem) :
    ∃ l, Host.Core.run Sys2Proof.core (n + 1) (s.inFrame 0 s.host) = .next (tick (s.inFrame n l)) := by
  obtain ⟨l, hl, hrun⟩ := run_inFrame s hs (n := n) (by omega)
  have noReset : (s.inFrame n l).noResetNext := by
    rintro rest (rfl : l = _)
    exact hl List.mem_cons_self
  obtain ⟨l', -, hstep⟩ := step_not_ready (inFrame_not_ready s n l) noReset
  exact ⟨l', run_last n hrun hstep⟩

/-- The tick that ends the frame leaves the block idle and the line LOW. -/
theorem tick_inFrame_last (s : State) {n : Nat} (l : List HostAct) (hn : n + 1 = frameEnd Config.params s.mem) :
    (tick (s.inFrame n l)).busy = false ∧ (tick (s.inFrame n l)).tx = false := by
  have idle : (settledFrame (s.inFrame n l)).busy = false :=
    settledFrame_of_sched_last (s := s.inFrame n l) rfl rfl hn
  have inProgress : (s.inFrame n l).busy = true := sched_busy ..
  rw [tick_busy, tick_tx]
  exact ⟨idle, settle_idle_low _ _ _ _ (s.inFrame n l).frame (fun h => by simp [inProgress] at h) idle⟩

/-! ### No completed wait is left waiting (rule R129) -/

/-- A busy encoder waits for a deadline that is not yet reached. -/
def State.waits (s : State) : Prop :=
  s.busy = true → reached s.now (s.frame.deadline Config.params s.mem) = false

theorem State.waits_of_idle {s : State} (h : s.busy = false) : s.waits := fun busy => by simp [h] at busy

/-- The encoder has fuel for every wait of a frame, so it stops only where it waits. -/
theorem tick_waits (s : State) : (tick s).waits := by
  intro busy
  rw [tick_busy] at busy
  have stops := settle_stops Config.params s.mem (addT s.now (micros Config.params.tw 1)) frameWaits s.frame
    (waitsLeft_le s.mem s.frame)
  rw [tick_of_busy busy]
  exact stops.resolve_left (by rw [← settledFrame, busy]; simp)

/-- A frame's first wait is for the mid-cell edge of cell 0. -/
theorem start_deadline {w : Nat} (p : Params) (m : Memory) (N0 : BitVec w) :
    (Frame.start p m N0).deadline p m = addT N0 (micros w (p.firstUs (bitk m 0))) := by
  simp [Frame.deadline, Frame.start, Frame.beginCell, Frame.inFirst, frameBits, addT, subT]

theorem start_not_reached {w : Nat} (p : Params) (m : Memory) (hw : 209 * p.unitUs < 2 ^ (w - 1)) (N0 : BitVec w) :
    reached N0 ((Frame.start p m N0).deadline p m) = false := by
  have half : 2 ^ (w - 1) ≤ 2 ^ w := Nat.pow_le_pow_right (by omega) (by omega)
  have pos := firstUs_pos p (bitk m 0)
  have lt := firstUs_lt p (bitk m 0)
  have distance : (subT (addT N0 (micros w (p.firstUs (bitk m 0)))) N0).toNat = p.firstUs (bitk m 0) := by
    rw [subT_addT, micros_toNat, Nat.mod_eq_of_lt (by omega)]
  rw [start_deadline]
  exact not_reached_of_distance (by omega) (by omega)

/-- XMIT starts a frame with its first wait ahead; every other command leaves an idle block idle. -/
theorem CommandEffect.waits {i : Instr} {s t : State} (h : CommandEffect i s t) (hb : s.busy = false) : t.waits := by
  cases i with
  | xmit a v =>
    cases h
    exact fun _ => start_not_reached Config.params s.mem Config.params.frame_fits s.now
  | _ => exact State.waits_of_idle ((h.onlySetBy.encoder (by simp [Instr.op])).1.trans hb)

theorem exec_waits {i : Instr} {s t : State} (hb : s.busy = false) (h : exec i s = .next t) : t.waits := by
  rcases exec_cases h with ⟨e, rfl⟩ | effect
  · exact State.waits_of_idle hb
  · exact effect.waits hb

theorem accept_waits {w : Word} {s t : State} (hb : s.busy = false) (h : accept w s = .next t) : t.waits := by
  rcases accept_cases h with ⟨i, -, hi⟩ | rfl
  · exact exec_waits hb hi
  · exact State.waits_of_idle hb

/-- A reset ends every frame, a tick settles the encoder, and a ready block has no frame before it accepts a word. -/
theorem step_waits {s t : State} (h : step s = .next t) : t.waits := by
  rcases step_cases h with ⟨rest, -, rfl⟩ | ⟨-, rest, -, rfl⟩ | ⟨w, rest, -, ready, haccept⟩
  · exact State.waits_of_idle rfl
  · exact tick_waits _
  · exact accept_waits (s := { s with host := rest }) ((cmdReady_iff s).mp ready).1 haccept

end Sys2Proof.Machine

open Sys2Proof Sys2Proof.Machine

/-- Settles O45: inside the frame the line is on `sched`, as the waveform is; the frame's last tick leaves it LOW. -/
theorem xmitTransmitsTheWaveform : Obligations.XmitTransmitsTheWaveform := by
  intro s hs
  refine ⟨_, exec_xmit_inFrame s, fun n hn => ?_⟩
  rcases Nat.lt_or_eq_of_le hn with inside | rfl
  · obtain ⟨l, -, hrun⟩ := run_inFrame s hs inside
    have busy : (s.inFrame n l).busy = decide (n < frameEnd Config.params s.mem) := by
      rw [decide_eq_true inside]
      exact sched_busy ..
    exact ⟨_, hrun, (levelAt_wave Config.params s.mem s.now n inside).symm, busy, rfl, onlyEncoderDiffers_inFrame s n l⟩
  · obtain ⟨k, hk⟩ := Nat.exists_eq_add_one.mpr (frameEnd_pos Config.params s.mem)
    obtain ⟨l, hrun⟩ := run_frame s hs hk.symm
    obtain ⟨idle, low⟩ := tick_inFrame_last s l hk.symm
    have now : (tick (s.inFrame k l)).now = addT s.now (micros Config.params.tw (k + 1)) :=
      (tick_now _).trans (addT_micros s.now k 1)
    rw [levelAt_wave_end, decide_eq_false (Nat.lt_irrefl _), hk]
    exact ⟨_, hrun, low, idle, now, (onlyEncoderDiffers_inFrame s k l).tick⟩

/-- Settles O9: a busy block is not ready, so without reset it ticks, and a tick moves the encoder alone. -/
theorem frameInProgressKeepsPayloadAndRegisters : Obligations.FrameInProgressKeepsPayloadAndRegisters := by
  intro s hb hn
  obtain ⟨rest, -, hstep⟩ := step_not_ready (by simp [State.cmdReady, hb]) hn
  have others : OnlyEncoderDiffers s { s with host := rest } := rfl
  exact ⟨_, hstep, tick_now _, others.tick⟩

/-- Settles O48: each kind of step leaves the block idle or its encoder waiting for a deadline ahead. -/
theorem encoderNeverLeavesACompletedWait : Obligations.EncoderNeverLeavesACompletedWait :=
  fun _ _ => step_waits

/-- Settles O44: the accepting step starts cell 0 at `NOW`; bit 0 of a frame is bit 4 of `B[0]`. -/
theorem xmitStartsTheFrame : Obligations.XmitStartsTheFrame := by
  refine fun a imm8 s => ⟨?_, fun h => exec_of_reserved s (if_pos h)⟩
  rw [exec_xmit_inFrame, ← setFrame_start]
  rfl
end

section
/-! The statements of 60_exceptions.md: error entry, the block halted by an error, the timer and the deadline test. -/

namespace Sys2Proof.Machine

/-! ### The block halted by an error (rule R143) -/

/-- Without reset a block that is not ready ticks, and no reset comes in with the inputs that are left. -/
theorem step_not_ready_noReset {s : State} (hr : s.cmdReady = false) (hs : s.noReset) :
    ∃ rest, HostAct.rst ∉ rest ∧ step s = .next (tick { s with host := rest }) := by
  have notNext : s.noResetNext := fun rest h => hs (h ▸ List.mem_cons_self)
  obtain ⟨rest, hrest, hstep⟩ := step_not_ready hr notNext
  refine ⟨rest, ?_, hstep⟩
  rcases hrest with rfl | ⟨x, hx⟩
  · exact hs
  · exact fun h => hs (hx ▸ List.mem_cons_of_mem x h)

/-- `n` steps without reset count `n` microseconds of a halted block and take inputs from its host. -/
theorem run_of_error {s : State} (n : Nat) (he : s.err = true) (hb : s.busy = false) (hs : s.noReset) :
    ∃ l, Host.Core.run Sys2Proof.core n s =
      .next { s with now := addT s.now (micros Config.params.tw n), host := l } := by
  induction n generalizing s with
  | zero =>
    refine ⟨s.host, ?_⟩
    rw [run_zero, show addT s.now (micros Config.params.tw 0) = s.now from BitVec.add_zero _]
  | succ n ih =>
    obtain ⟨rest, hrest, hstep⟩ := step_not_ready_noReset (by simp [State.cmdReady, he]) hs
    rw [tick_idle (s := { s with host := rest }) hb] at hstep
    obtain ⟨l, hrun⟩ := ih (s := State.countMicrosecond { s with host := rest }) he hb hrest
    refine ⟨l, (run_succ n hstep).trans (hrun.trans ?_)⟩
    rw [countMicrosecond_now, addT_micros, Nat.add_comm 1 n]
    rfl

/-! ### Distances and the deadline test (rules R151, R152) -/

section
variable {w : Nat}

/-- Subtraction as the spec has it, modulo `2^w` over the integers. -/
theorem subT_toNat_emod (x y : BitVec w) : ((subT x y).toNat : Int) = ((x.toNat : Int) - (y.toNat : Int)) % (2 ^ w : Int) := by
  have noBorrow : ((2 ^ w - y.toNat + x.toNat : Nat) : Int) = (x.toNat - y.toNat : Int) + 2 ^ w := by
    rw [Nat.cast_add, Nat.cast_sub y.isLt.le, Nat.cast_pow, Nat.cast_ofNat]
    ring
  rw [subT_toNat, Int.natCast_mod, noBorrow, Nat.cast_pow, Nat.cast_ofNat, Int.add_emod_right]

theorem reached_iff (now t : BitVec w) : reached now t = true ↔ (subT now t).toNat < 2 ^ (w - 1) :=
  decide_eq_true_iff

theorem residualWait_of_reached {now t : BitVec w} (h : reached now t = true) : residualWait now t = 0 := if_pos h

theorem residualWait_of_not_reached {now t : BitVec w} (h : reached now t = false) : residualWait now t = subT t now :=
  if_neg (Bool.eq_false_iff.mp h)

/-- A deadline passed by less than half the range is reached. -/
theorem reached_addT_of_lt (t : BitVec w) {d : BitVec w} (h : d.toNat < 2 ^ (w - 1)) : reached (addT t d) t = true := by
  rwa [reached_iff, subT_addT]

/-- A deadline ahead, by less than half the range, is not reached. -/
theorem not_reached_addT_of_lt (t : BitVec w) {d : BitVec w} (h0 : d ≠ 0) (h : d.toNat < 2 ^ (w - 1)) :
    reached t (addT t d) = false := by
  have ahead : 0 < d.toNat := Nat.pos_of_ne_zero fun e => h0 (BitVec.eq_of_toNat_eq e)
  apply not_reached_of_distance <;> rw [subT_addT]
  · exact ahead
  · exact h.le

end

end Sys2Proof.Machine

open Sys2Proof Sys2Proof.Machine

/-- Settles O10: a halted block is not ready, so each step without reset is a tick, and a tick of an idle block only counts. -/
theorem errorHaltsTheBlockUntilReset : Obligations.ErrorHaltsTheBlockUntilReset := by
  intro s n he hb hs
  obtain ⟨l, hrun⟩ := run_of_error n he hb hs
  exact ⟨_, hrun, rfl⟩

/-- Settles O50: the distance from `t` to `t + d` is `d`, and the test compares it with half the range. -/
theorem deadlineTestIsExactWithinHalfTheRange : Obligations.DeadlineTestIsExactWithinHalfTheRange := by
  refine fun w t d => ⟨addT_toNat t d, subT_toNat_emod t d, subT_addT t d, reached_iff t d, rfl, fun near => ?_⟩
  have passed : reached (addT t d) t = true := reached_addT_of_lt t near
  refine ⟨passed, residualWait_of_reached passed, fun ahead => ?_⟩
  have waiting : reached t (addT t d) = false := not_reached_addT_of_lt t ahead near
  exact ⟨waiting, (residualWait_of_not_reached waiting).trans (subT_addT t d)⟩

/-- Settles O14: error entry is this update of the latch, with the code of its cause. -/
theorem errorEntryWritesOnlyTheLatch : Obligations.ErrorEntryWritesOnlyTheLatch := by
  refine fun e cmd s => ⟨e.code, rfl, ?_⟩
  cases e <;> decide
end

section
/-! The statements of 70_reset_and_hazards.md: the reset input in any state, and the idle line. -/

namespace Sys2Proof.Machine

/-! ### The reset input (rules R170, R171) -/

/-- `rst` comes before everything else a step can do. -/
theorem step_rst {s : State} {rest : List HostAct} (hh : s.host = .rst :: rest) :
    step s = .next (assertReset { s with host := rest }) := by
  rw [step, portStep, hh]

/-! ### The idle line (rule R186) -/

/-- An encoder that was idle and LOW, or transmitting, leaves the line LOW if the tick finds or makes it idle. -/
theorem tick_idleLow {s : State} (hs : s.idleLow) : (tick s).idleLow := by
  unfold State.idleLow
  rw [tick_busy, tick_tx]
  exact settle_idle_low Config.params s.mem _ _ s.frame hs

/-- XMIT leaves the block busy; every other command keeps `BUSY` and `TX`. -/
theorem CommandEffect.idleLow {i : Instr} {s t : State} (h : CommandEffect i s t) (hs : s.idleLow) : t.idleLow := by
  cases i with
  | xmit a v =>
    cases h
    exact fun (idle : true = false) => nomatch idle
  | _ =>
    obtain ⟨busy, -, -, tx⟩ := h.onlySetBy.encoder (by simp [Instr.op])
    exact fun idle => tx.trans (hs (busy.symm.trans idle))

theorem exec_idleLow {i : Instr} {s t : State} (hs : s.idleLow) (h : exec i s = .next t) : t.idleLow := by
  rcases exec_cases h with ⟨e, rfl⟩ | effect
  · exact hs
  · exact effect.idleLow hs

theorem accept_idleLow {w : Word} {s t : State} (hs : s.idleLow) (h : accept w s = .next t) : t.idleLow := by
  rcases accept_cases h with ⟨i, -, hi⟩ | rfl
  · exact exec_idleLow hs hi
  · exact hs

/-- A reset drives the line LOW; a tick and an accepted word keep an idle line LOW. -/
theorem step_idleLow {s t : State} (hs : s.idleLow) (h : step s = .next t) : t.idleLow := by
  rcases step_cases h with ⟨rest, -, rfl⟩ | ⟨-, rest, -, rfl⟩ | ⟨w, rest, -, -, haccept⟩
  · exact fun _ => assertReset_tx _
  · exact tick_idleLow (s := { s with host := rest }) hs
  · exact accept_idleLow (s := { s with host := rest }) hs haccept

end Sys2Proof.Machine

open Sys2Proof Sys2Proof.Machine

/-- Settles O16: the step is `assertReset`, which writes the stated values and meets the block's invariant. -/
theorem resetPinOverridesEverything : Obligations.ResetPinOverridesEverything := by
  intro s rest hh
  have canonical : Memory.wf (assertReset { s with host := rest }).mem = true := (assertReset_inv _).memory
  exact ⟨_, step_rst hh, rfl, rfl, rfl, rfl, rfl, rfl, rfl, rfl, rfl, canonical⟩

/-- Settles O20: the reset state's line is LOW, every step keeps it so while idle, and only XMIT writes the encoder's registers. -/
theorem idleLineIsLow : Obligations.IdleLineIsLow := by
  refine ⟨fun _ => rfl, fun s t hs h => step_idleLow hs h, fun i s t notXmit h => ?_⟩
  obtain ⟨-, -, -, tx⟩ := (exec_onlySetBy h).encoder notXmit
  exact tx
end
